-- ==== Sys2Proof/Word.lean ====
section
/-! DEFINITION. The value domains of the j721 LS-8 CORE (spec/00_scope.md R8, R9, R11, R17): every datum is one
unsigned byte, the flags are three bits, a register index is 0 to 7. -/

namespace Sys2Proof

/-- One register, memory cell, operand or output datum (R8, R9, R17). -/
abbrev Byte := BitVec 8

/-- The flags register: bit 0 = Equal, bit 1 = Greater, bit 2 = Less (R11, R38). -/
abbrev Flags := BitVec 3

/-- A legal register index, 0 to 7 (R9, R31). -/
abbrev RegIndex := Fin 8

/-- The stack pointer is register 7 (R10, R32). -/
abbrev SP : RegIndex := 7

end Sys2Proof
end

