-- ==== Sys2Proof/Config.lean ====
section
/-! DEFINITION. What is fixed for one machine: the parameters the spec fixes (spec/00_scope.md R8 to R15) and the two
values it leaves open, each a constant without a body, so that no proof can rest on a value of it. -/

namespace Sys2Proof.Config

/-- Number of memory cells (R8). -/
def memSize : Nat := 256

/-- The stack pointer's reset value, 0xF4 = 244 (R10). -/
def spReset : Byte := 0xF4

/-- `MEM_INIT` (R13, R55; 92_eei_decisions.md D3, OPEN): the launch value of each memory cell the loader does not
write. The spec gives no value, so this constant has none (DESIGN CHOICE of form only, log 1; safe). -/
opaque memInit : Nat → Byte

/-- Where the trace probe's three memory bytes begin, counted from pc (R294). The source says "the next three memory
bytes" and not whether the first of them is at pc or at pc + 1 (91_not_in_source.md N21), so the constant has no body
(DESIGN CHOICE of form only, log 13; safe). -/
opaque probeOffset : Fin 2

end Sys2Proof.Config
end

