-- ==== Sys2Proof/Machine/State.lean ====
section
/-! DEFINITION. The architectural state of the CORE (spec/10_state.md R30), the fault reasons (spec/60_exceptions.md
R280) and the state after reset (R55). -/

namespace Sys2Proof.Machine

/-- The five fault reasons (R280). A fault is TAKEN as the spec describes it (R147, R288): the next state holds
`status = faulted reason` and is otherwise the state before, so no step answers `Outcome.fault` (log 3). All five are
the spec's own; a model with more faults than a chip is safe. -/
inductive Fault where
  /-- A memory access above address 255, or a write of a value above 255: raised by fetch, operand fetch and CALL at
  254 (R81, R82, R143, R145, R251, R281). Safe against a wrapping chip (D4, D5: log 4, log 5). -/
  | outOfRangeAddress
  /-- An opcode byte outside the table: raised by decode (R118, R144, R282). -/
  | unknownOpcode
  /-- MOD with a zero divisor: raised by MOD (R184, R283). -/
  | divisionByZero
  /-- The ALU given a selector outside its ten operations: raised by the ALU's reject arm, unreachable through the
  decoder (R171, R284). -/
  | unsupportedAluOperation
  /-- A register-index operand byte of 8 to 255: raised by the register-index check (R119, R146, R285). Safe against a
  chip that masks the index (D6: log 6). -/
  | invalidRegisterIndex
deriving DecidableEq, Repr

/-- Why the model has no meaning for an instruction. No arm of exec answers this: every instruction has its meaning. -/
inductive Refusal where
  /-- The instruction of this mnemonic has no meaning yet; raised by an arm of exec only. Safe. -/
  | notModelled (mnemonic : String)
deriving DecidableEq, Repr

/-- The control state (R41, R140). -/
inductive Status where
  | running
  | halted
  | faulted (reason : Fault)
deriving DecidableEq, Repr

/-- Memory: (address, byte) pairs. Canonical form: `Memory.wf` (Machine/Ops.lean). -/
abbrev Memory := List Host.Cell

/-- The architectural state, with the spec's own names (R30). "Nothing else is state." -/
structure State where
  /-- the 256 memory cells, program, data and stack (R46, R80) -/
  mem : Memory
  /-- the registers R0 to R7; R7 is SP (R31, R32) -/
  x : Vector Byte 8
  /-- the flags: bit 0 E, bit 1 G, bit 2 L (R38) -/
  fl : Flags
  /-- the address of the next opcode; an integer that never wraps (R35, R36) -/
  pc : Nat
  /-- the control state (R41) -/
  status : Status
  /-- the bytes PRN has emitted, in order (R44) -/
  out : List Byte
deriving DecidableEq, Repr

/-- What a step answers. -/
abbrev Answer := Host.Outcome State Fault Refusal

/-- The launch memory `MEM_INIT`: all 256 cells, none of a known value (R13, R55; D3, log 1). -/
def launchMemory : Memory := (List.range Config.memSize).map fun a => (a, Config.memInit a)

/-- The machine right after reset (R55, R310): "Initial state: `Running`, PC = 0, SP = 244, Flags = 0, all general
registers = 0"; `out` empty (D24, log 11), memory `MEM_INIT` with no program in it (log 14). -/
def State.reset : State where
  mem := launchMemory
  x := #v[0, 0, 0, 0, 0, 0, 0, Config.spReset]
  fl := 0
  pc := 0
  status := .running
  out := []

end Sys2Proof.Machine
end

