-- ==== Sys2Proof/Machine/Ops.lean ====
section
/-! DEFINITION. The named operations every meaning is built from: the pseudocode primitives of spec/00_scope.md R19
over memory, registers, pc and output; the stack primitives of spec/43_stack.md R230; completing an instruction
atomically (R21) and taking a fault (spec/40_dispatch_cycle.md R147). -/

namespace Sys2Proof.Machine

/-! ### Memory (spec/20_memory.md) -/

/-- The byte listed for an address. -/
def Memory.lookup : Memory → Nat → Option Byte
  | [], _ => none
  | (k, b) :: m, a => if k = a then some b else Memory.lookup m a

/-- The canonical form: exactly one entry for each of the 256 addresses, in rising order, so that equal memories are
equal lists (R80, R95 "never resized"). An address that is not listed is one above 255: it does not exist, has no
value and is never read (R81). -/
abbrev Memory.wf (m : Memory) : Prop := m.map Prod.fst = List.range Config.memSize

/-- The byte of an address of the space. In a canonical memory it is the listed one. (In a list that lacks the
address, which no run has, it is the launch value, R90; log 1.) -/
def Memory.read (m : Memory) (a : Nat) : Byte := (Memory.lookup m a).getD (Config.memInit a)

/-- Put a byte at an address, keeping the addresses in rising order. -/
def Memory.write : Memory → Nat → Byte → Memory
  | [], a, v => [(a, v)]
  | (k, b) :: m, a, v =>
    if a < k then (a, v) :: (k, b) :: m
    else if a = k then (a, v) :: m
    else (k, b) :: Memory.write m a v

/-- `MemRead(a, 1)` (R81): an address above 255 raises OutOfRangeAddress and nothing wraps. -/
def State.memRead (s : State) (a : Nat) : Except Fault Byte :=
  if a > 255 then .error .outOfRangeAddress else .ok (Memory.read s.mem a)

/-- `MemWrite(a, 1, v)` (R82): an address or a value above 255 raises OutOfRangeAddress; nothing wraps or is masked
(C1, C8; the value's case is D5, log 5). -/
def State.memWrite (s : State) (a v : Nat) : Except Fault State :=
  if a > 255 then .error .outOfRangeAddress
  else if v > 255 then .error .outOfRangeAddress
  else .ok { s with mem := Memory.write s.mem a (BitVec.ofNat 8 v) }

/-! ### Registers, flags, pc, status, output (spec/10_state.md) -/

/-- `x[i]` (R31). -/
def State.readReg (s : State) (i : RegIndex) : Byte := s.x[i.val]

/-- `x[i] <- v`: stores `v mod 256` (R34). -/
def State.writeReg (s : State) (i : RegIndex) (v : Nat) : State :=
  { s with x := s.x.set i.val (BitVec.ofNat 8 v) }

/-- `SP`, another name for `x[7]` (R32). -/
def State.sp (s : State) : Byte := s.readReg SP

/-- `fl <- f` (R38). -/
def State.setFlags (s : State) (f : Flags) : State := { s with fl := f }

/-- `pc <- target` (R35). -/
def State.setPc (s : State) (target : Nat) : State := { s with pc := target }

/-- `status <- st` (R41). -/
def State.setStatus (s : State) (st : Status) : State := { s with status := st }

/-- `emit(v)`: appends v to the output channel (R44). -/
def State.emit (s : State) (v : Byte) : State := { s with out := s.out ++ [v] }

/-! ### The stack primitives (spec/43_stack.md R230) -/

/-- push-decrement: `SP <- (SP - 1) mod 256` (R230, R231). -/
def State.pushDecrement (s : State) : State := s.writeReg SP (s.sp - 1).toNat

/-- push-write(v): `MemWrite(SP, 1, v)`, SP as just decremented (R230). -/
def State.pushWrite (s : State) (v : Nat) : Except Fault State := s.memWrite s.sp.toNat v

/-- pop-read: `MemRead(SP, 1)`, SP before the increment (R230). -/
def State.popRead (s : State) : Except Fault Byte := s.memRead s.sp.toNat

/-- pop-increment: `SP <- (SP + 1) mod 256` (R230, R231). -/
def State.popIncrement (s : State) : State := s.writeReg SP (s.sp + 1).toNat

/-! ### Ending a cycle (spec/40_dispatch_cycle.md) -/

/-- TAKING A FAULT (R147, R288): `status <- Faulted(F)` and nothing else changes, so pc stays at `pc0` and no register,
flag, memory cell or output is written (D8, log 8). It saves nothing and vectors nowhere. There is NO RETURN FROM A
FAULT (R289): no instruction leaves the faulted state, only a new reset does (R152, R310). -/
def raise (f : Fault) (s : State) : Answer := .next (s.setStatus (.faulted f))

/-- Completing an instruction atomically (R21): it is computed on a copy of the state, which is kept only when no line
raised a fault. -/
def complete (s : State) : Except Fault State → Answer
  | .ok t => .next t
  | .error f => raise f s

/-- Completing an instruction that does not write pc: the default advance `pc <- pc0 + 1 + n`, with no wrap-around
(R149, R36; `s` is the state at the start of the cycle, so `s.pc` is `pc0`, R141). -/
def completeAdvance (s : State) (n : Nat) (m : Except Fault State) : Answer :=
  complete s (m.map fun t => t.setPc (s.pc + 1 + n))

end Sys2Proof.Machine
end

