-- ==== Sys2Proof/Machine/Flags.lean ====
section
/-! DEFINITION. The flags E, G, L (spec/10_state.md R38 to R40, spec/41_alu.md R171, R177): the one flag computation
the hardware has, CMP's unsigned comparison, and the one flag an instruction reads, E. -/

namespace Sys2Proof.Machine

/-- Bit 0, Equal (R38): the only flag JEQ and JNE read (R40). -/
def flagE (f : Flags) : Bool := f.getLsbD 0

/-- Bit 1, Greater (R38); no instruction reads it (R40). -/
def flagG (f : Flags) : Bool := f.getLsbD 1

/-- Bit 2, Less (R38); no instruction reads it (R40). -/
def flagL (f : Flags) : Bool := f.getLsbD 2

/-- CMP's result: exactly one of E, G, L by unsigned comparison (R171, R177). -/
def compareFlags (a b : Byte) : Flags :=
  if a = b then 0b001 else if b.toNat < a.toNat then 0b010 else 0b100

end Sys2Proof.Machine
end

