-- ==== Sys2Proof/Syntax.lean ====
section
/-! DEFINITION. The abstract syntax: one constructor for each of the twenty rows of spec/opcode_table.json
(spec/00_scope.md R3, spec/30_encoding.md R117), carrying its operand BYTES as they stand in memory. A register-index
operand is kept as its byte, since a byte of 8 to 255 is fetched and only then rejected (R112, R119, R146). -/

namespace Sys2Proof

/-- The two kinds of operand byte (R112). -/
inductive OperandKind where
  | reg
  | imm
deriving DecidableEq, Repr

/-- The twenty instructions, in the table's order (R117). `ra`, `rb`, `r` are register-index operand bytes and `imm` is
an immediate operand byte (R22). -/
inductive Instr where
  | ldi (r imm : Byte)
  | prn (r : Byte)
  | hlt
  | mul (ra rb : Byte)
  | add (ra rb : Byte)
  | cmp (ra rb : Byte)
  | pop (r : Byte)
  | push (r : Byte)
  | call (r : Byte)
  | ret
  | jmp (r : Byte)
  | jeq (r : Byte)
  | jne (r : Byte)
  | and (ra rb : Byte)
  | or (ra rb : Byte)
  | xor (ra rb : Byte)
  | not (r : Byte)
  | shl (ra rb : Byte)
  | shr (ra rb : Byte)
  | mod (ra rb : Byte)
deriving DecidableEq, Repr

/-- The operands in byte order, each with its kind (R111, R112: only LDI's second operand is an immediate). -/
def Instr.operands : Instr → List (OperandKind × Byte)
  | .ldi r imm => [(.reg, r), (.imm, imm)]
  | .prn r => [(.reg, r)]
  | .hlt => []
  | .mul ra rb => [(.reg, ra), (.reg, rb)]
  | .add ra rb => [(.reg, ra), (.reg, rb)]
  | .cmp ra rb => [(.reg, ra), (.reg, rb)]
  | .pop r => [(.reg, r)]
  | .push r => [(.reg, r)]
  | .call r => [(.reg, r)]
  | .ret => []
  | .jmp r => [(.reg, r)]
  | .jeq r => [(.reg, r)]
  | .jne r => [(.reg, r)]
  | .and ra rb => [(.reg, ra), (.reg, rb)]
  | .or ra rb => [(.reg, ra), (.reg, rb)]
  | .xor ra rb => [(.reg, ra), (.reg, rb)]
  | .not r => [(.reg, r)]
  | .shl ra rb => [(.reg, ra), (.reg, rb)]
  | .shr ra rb => [(.reg, ra), (.reg, rb)]
  | .mod ra rb => [(.reg, ra), (.reg, rb)]

/-- The length in bytes, `1 + n` for n operands (R110, R14). -/
def Instr.length (i : Instr) : Nat := 1 + i.operands.length

end Sys2Proof
end

