-- ==== Sys2Proof/WellFormed.lean ====
section
/-! DEFINITION. The one check an instruction can fail: a register-index operand byte names a register, 0 to 7
(spec/30_encoding.md R112, R119). "An immediate byte is never illegal." An instruction that fails the check still
decodes; executing it raises InvalidRegisterIndex (Machine/Operands.lean). -/

namespace Sys2Proof

/-- An operand byte of this kind is legal (R112). -/
def OperandKind.legal : OperandKind → Byte → Bool
  | .reg, b => decide (b.toNat ≤ 7)
  | .imm, _ => true

/-- Every operand byte is legal (R112, R119). -/
def Instr.wellFormed (i : Instr) : Bool := i.operands.all fun o => o.1.legal o.2

end Sys2Proof
end

