-- ==== Sys2Proof/Machine/Operands.lean ====
section
/-! DEFINITION. The register-index check (spec/40_dispatch_cycle.md R146, spec/30_encoding.md R119). An immediate
operand has no check and is used unchanged (R112, R113). -/

namespace Sys2Proof.Machine

/-- The register a register-index operand byte names, or InvalidRegisterIndex for 8 to 255. The index is not masked
(R112, R119, R146; D6, log 6). -/
def regOperand (b : Byte) : Except Fault RegIndex :=
  if h : b.toNat < 8 then .ok ⟨b.toNat, h⟩ else .error .invalidRegisterIndex

end Sys2Proof.Machine
end

