-- ==== Sys2Proof/Machine/Alu.lean ====
section
/-! DEFINITION. The alu block and the ten ALU instructions (spec/41_alu.md R170 to R186): ADD, MUL, CMP, AND, OR, XOR,
NOT, SHL, SHR, MOD. -/

namespace Sys2Proof.Machine

/-- What the ALU answers (R50). -/
inductive AluOutput where
  | result (v : Byte)
  | flags (f : Flags)
  | fault (f : Fault)
deriving DecidableEq, Repr

/-- `Apply(op, a, b)` (R171): a pure function of a selector, which is the instruction's opcode byte (D14, log 15), and
two byte values. Any other selector is rejected explicitly (R284). -/
def aluApply (op a b : Byte) : AluOutput :=
  if op = 0xA0 then .result (BitVec.ofNat 8 (a.toNat + b.toNat))
  else if op = 0xA2 then .result (BitVec.ofNat 8 (a.toNat * b.toNat))
  else if op = 0xA7 then .flags (compareFlags a b)
  else if op = 0xA8 then .result (a &&& b)
  else if op = 0xAA then .result (a ||| b)
  else if op = 0xAB then .result (a ^^^ b)
  else if op = 0x69 then .result (~~~ a)
  else if op = 0xAC then .result (a <<< b.toNat)
  else if op = 0xAD then .result (a >>> b.toNat)
  else if op = 0xA4 then
    if b = 0 then .fault .divisionByZero else .result (BitVec.ofNat 8 (a.toNat % b.toNat))
  else .fault .unsupportedAluOperation

/-- Write-back of the ALU's output (R173): a result into the first operand's register, flags into `fl`, a fault
raised. -/
def writeBack (s : State) (dest : RegIndex) : AluOutput → Except Fault State
  | .result v => .ok (s.writeReg dest v.toNat)
  | .flags f => .ok (s.setFlags f)
  | .fault f => .error f

/-- `ExecALU2(op, ra, rb)` (41_alu.md, before R175): both registers are read before anything is written (R172). -/
def execAlu2 (op ra rb : Byte) (s : State) : Answer :=
  completeAdvance s 2 do
    let a ← regOperand ra
    let b ← regOperand rb
    writeBack s a (aluApply op (s.readReg a) (s.readReg b))

/-- The one-register ALU form, NOT's (R172, R181): the second ALU operand is unused (R170, R171 "b ignored"). -/
def execAlu1 (op r : Byte) (s : State) : Answer :=
  completeAdvance s 1 do
    let a ← regOperand r
    writeBack s a (aluApply op (s.readReg a) 0)

/-- ADD ra, rb (R175). -/
def execAdd (ra rb : Byte) (s : State) : Answer := execAlu2 0xA0 ra rb s

/-- MUL ra, rb (R176). -/
def execMul (ra rb : Byte) (s : State) : Answer := execAlu2 0xA2 ra rb s

/-- CMP ra, rb (R177). -/
def execCmp (ra rb : Byte) (s : State) : Answer := execAlu2 0xA7 ra rb s

/-- AND ra, rb (R178). -/
def execAnd (ra rb : Byte) (s : State) : Answer := execAlu2 0xA8 ra rb s

/-- OR ra, rb (R179). -/
def execOr (ra rb : Byte) (s : State) : Answer := execAlu2 0xAA ra rb s

/-- XOR ra, rb (R180). -/
def execXor (ra rb : Byte) (s : State) : Answer := execAlu2 0xAB ra rb s

/-- NOT r (R181): the register's own value is complemented, with no indirection through it (C2). -/
def execNot (r : Byte) (s : State) : Answer := execAlu1 0x69 r s

/-- SHL ra, rb (R182): the amount is the whole byte, and the result is written back (C3). -/
def execShl (ra rb : Byte) (s : State) : Answer := execAlu2 0xAC ra rb s

/-- SHR ra, rb (R183): logical, the amount is the whole byte, and the result is written back (C3). -/
def execShr (ra rb : Byte) (s : State) : Answer := execAlu2 0xAD ra rb s

/-- MOD ra, rb (R184): a zero divisor raises DivisionByZero (C4). -/
def execMod (ra rb : Byte) (s : State) : Answer := execAlu2 0xA4 ra rb s

end Sys2Proof.Machine
end

