-- ==== Sys2Proof/Machine/ControlTransfer.lean ====
section
/-! DEFINITION. CALL, RET, JMP, JEQ and JNE (spec/44_control_transfer.md R250 to R257). A target is a register's value
or a popped byte; an instruction that writes pc gets no default advance (R150). -/

namespace Sys2Proof.Machine

/-- CALL r (R251): "push PC+2 onto stack; PC := reg value". The return address 256 is no byte, so CALL at 254 raises
OutOfRangeAddress before any write (D5, log 5); the register is read after the push (D7, log 7). -/
def execCall (r : Byte) (s : State) : Answer :=
  complete s do
    let i ← regOperand r
    if s.pc + 2 > 255 then .error .outOfRangeAddress
    else
      let s1 ← s.pushDecrement.pushWrite (s.pc + 2)
      return s1.setPc (s1.readReg i).toNat

/-- RET (R252): "pop stack into PC". -/
def execRet (s : State) : Answer :=
  complete s do
    let v ← s.popRead
    return (s.setPc v.toNat).popIncrement

/-- JMP r (R253): the run goes on like after every other instruction (C6). -/
def execJmp (r : Byte) (s : State) : Answer :=
  complete s do
    let i ← regOperand r
    return s.setPc (s.readReg i).toNat

/-- A one-register conditional jump: to the register's value when taken, else the default advance (R149, R150). The
register index is checked whether or not the jump is taken (R146). -/
def jumpIf (taken : Bool) (r : Byte) (s : State) : Answer :=
  complete s do
    let i ← regOperand r
    return s.setPc (if taken then (s.readReg i).toNat else s.pc + 2)

/-- JEQ r (R254): taken when E is set. -/
def execJeq (r : Byte) (s : State) : Answer := jumpIf (flagE s.fl) r s

/-- JNE r (R255): taken when E is clear. -/
def execJne (r : Byte) (s : State) : Answer := jumpIf (!flagE s.fl) r s

end Sys2Proof.Machine
end

