-- ==== Sys2Proof/Machine/RegisterOutput.lean ====
section
/-! DEFINITION. LDI, PRN and HLT (spec/42_register_and_output.md R210 to R212). -/

namespace Sys2Proof.Machine

/-- LDI r, imm (R210): the immediate byte is stored unchanged (R113). -/
def execLdi (r imm : Byte) (s : State) : Answer :=
  completeAdvance s 2 do
    let i ← regOperand r
    return s.writeReg i imm.toNat

/-- PRN r (R211): emits the register's byte; its decimal text is the host's (D13, log 11). -/
def execPrn (r : Byte) (s : State) : Answer :=
  completeAdvance s 1 do
    let i ← regOperand r
    return s.emit (s.readReg i)

/-- HLT (R212, R151): the default advance and then `status <- Halted` (D10, log 10). -/
def execHlt (s : State) : Answer :=
  completeAdvance s 0 (.ok (s.setStatus .halted))

end Sys2Proof.Machine
end

