-- ==== Sys2Proof/Machine/Stack.lean ====
section
/-! DEFINITION. PUSH and POP (spec/43_stack.md R230 to R234). Each line sees the writes of the lines before it (R20),
which decides PUSH and POP of R7 (D7, log 7). No stack check exists (R232). -/

namespace Sys2Proof.Machine

/-- PUSH r (R233): `SP -= 1; Memory[SP] := reg`, the register read after the decrement. -/
def execPush (r : Byte) (s : State) : Answer :=
  completeAdvance s 1 do
    let i ← regOperand r
    let s1 := s.pushDecrement
    s1.pushWrite (s1.readReg i).toNat

/-- POP r (R234): `reg := Memory[SP]; SP += 1`, SP incremented as the write to the register left it. -/
def execPop (r : Byte) (s : State) : Answer :=
  completeAdvance s 1 do
    let i ← regOperand r
    let v ← s.popRead
    return (s.writeReg i v.toNat).popIncrement

end Sys2Proof.Machine
end

