-- ==== Sys2Proof/Decode.lean ====
section
/-! DEFINITION. The instruction_decoder (spec/10_state.md R48, spec/30_encoding.md R110 to R118): the opcode table by
full-byte match, a decoder total on any bytes that rejects by name, and the encoder written from the same table. -/

namespace Sys2Proof

/-- The four instruction formats (R111), each with the instruction it builds from its operand bytes. -/
inductive Format where
  /-- no operand -/
  | n (i : Instr)
  /-- one register-index operand -/
  | r (mk : Byte → Instr)
  /-- two register-index operands -/
  | rr (mk : Byte → Byte → Instr)
  /-- a register-index operand and an immediate -/
  | ri (mk : Byte → Byte → Instr)

/-- The operand kinds of a format, in byte order (R111, R112). -/
def Format.kinds : Format → List OperandKind
  | .n _ => []
  | .r _ => [.reg]
  | .rr _ => [.reg, .reg]
  | .ri _ => [.reg, .imm]

/-- One row of the opcode table (R117). -/
structure Row where
  opcode : Byte
  mnemonic : String
  format : Format

/-- The operand count n of a row (R48, R117). -/
def Row.count (row : Row) : Nat := row.format.kinds.length

/-- The opcode table in the source's order (R117). -/
def opcodeTable : List Row :=
  [ ⟨0x82, "LDI", .ri .ldi⟩, ⟨0x47, "PRN", .r .prn⟩, ⟨0x01, "HLT", .n .hlt⟩,
    ⟨0xA2, "MUL", .rr .mul⟩, ⟨0xA0, "ADD", .rr .add⟩, ⟨0xA7, "CMP", .rr .cmp⟩,
    ⟨0x46, "POP", .r .pop⟩, ⟨0x45, "PUSH", .r .push⟩, ⟨0x50, "CALL", .r .call⟩,
    ⟨0x11, "RET", .n .ret⟩, ⟨0x54, "JMP", .r .jmp⟩, ⟨0x55, "JEQ", .r .jeq⟩,
    ⟨0x56, "JNE", .r .jne⟩, ⟨0xA8, "AND", .rr .and⟩, ⟨0xAA, "OR", .rr .or⟩,
    ⟨0xAB, "XOR", .rr .xor⟩, ⟨0x69, "NOT", .r .not⟩, ⟨0xAC, "SHL", .rr .shl⟩,
    ⟨0xAD, "SHR", .rr .shr⟩, ⟨0xA4, "MOD", .rr .mod⟩ ]

/-- The row of an opcode byte by whole-byte match, or none for `Unknown` (R48, R116). -/
def decodeOpcode (op : Byte) : Option Row := opcodeTable.find? fun row => row.opcode == op

/-- Why a byte string is no instruction. -/
inductive DecodeError where
  /-- the first byte is none of the twenty opcodes (R118) -/
  | unknownOpcode
  /-- the bytes end before the instruction does (R145) -/
  | truncated
deriving DecidableEq, Repr

/-- The operand bytes of a format taken from the bytes after the opcode (R110, R111). -/
def Format.take : Format → List Byte → Except DecodeError (Instr × List Byte)
  | .n i, rest => .ok (i, rest)
  | .r mk, b :: rest => .ok (mk b, rest)
  | .rr mk, a :: b :: rest => .ok (mk a b, rest)
  | .ri mk, a :: b :: rest => .ok (mk a b, rest)
  | _, _ => .error .truncated

/-- Decode the first instruction of a byte string; answers it with the bytes after it (R110, R114, R116). -/
def decode : List Byte → Except DecodeError (Instr × List Byte)
  | [] => .error .truncated
  | op :: rest =>
    match decodeOpcode op with
    | none => .error .unknownOpcode
    | some row => row.format.take rest

/-- The opcode byte of an instruction (R117). -/
def Instr.opcode : Instr → Byte
  | .ldi _ _ => 0x82
  | .prn _ => 0x47
  | .hlt => 0x01
  | .mul _ _ => 0xA2
  | .add _ _ => 0xA0
  | .cmp _ _ => 0xA7
  | .pop _ => 0x46
  | .push _ => 0x45
  | .call _ => 0x50
  | .ret => 0x11
  | .jmp _ => 0x54
  | .jeq _ => 0x55
  | .jne _ => 0x56
  | .and _ _ => 0xA8
  | .or _ _ => 0xAA
  | .xor _ _ => 0xAB
  | .not _ => 0x69
  | .shl _ _ => 0xAC
  | .shr _ _ => 0xAD
  | .mod _ _ => 0xA4

/-- The bytes of an instruction at ascending addresses: the opcode, then its operand bytes (R84, R111). -/
def encode (i : Instr) : List Byte := i.opcode :: i.operands.map Prod.snd

/-- The three bytes of a table word: byte 0 is bits 7..0, byte 1 bits 15..8, byte 2 bits 23..16, every bit from `nbits`
on read as 0. Three bytes is the longest instruction (R14). -/
def tableBytes (nbits w : Nat) : List Byte :=
  let v := w % 2 ^ nbits
  [BitVec.ofNat 8 v, BitVec.ofNat 8 (v / 256), BitVec.ofNat 8 (v / 65536)]

/-- The instruction the decoder reads from a table word (none where it refuses). -/
def decodeTableWord (nbits w : Nat) : Option Instr :=
  match decode (tableBytes nbits w) with
  | .ok (i, _) => some i
  | .error _ => none

/-- An operand in assembler syntax: registers as `R0` to `R7`, an immediate as a decimal number (R121). -/
def OperandKind.text : OperandKind → Byte → String
  | .reg, b => "R" ++ Nat.repr b.toNat
  | .imm, b => Nat.repr b.toNat

/-- The instruction in assembler syntax: "the mnemonic, a space, then the operands separated by a comma", operand order
equal to byte order (R121; D22, log 17). -/
def Instr.text (i : Instr) : String :=
  let name := match decodeOpcode i.opcode with
    | some row => row.mnemonic
    | none => ""
  match i.operands.map fun o => o.1.text o.2 with
  | [] => name
  | o :: os => os.foldl (fun acc o' => acc ++ "," ++ o') (name ++ " " ++ o)

end Sys2Proof
end

