-- ==== Sys2Proof/Machine/Fetch.lean ====
section
/-! DEFINITION. Fetch, decode and operand fetch (spec/40_dispatch_cycle.md R142 to R145), and how a program's bytes come
to stand in memory. -/

namespace Sys2Proof.Machine

/-- Operand fetch (R145): exactly n bytes from address a on, in that order. -/
def fetchBytes (s : State) (a : Nat) : Nat → Except Fault (List Byte)
  | 0 => .ok []
  | n + 1 => do
    let b ← s.memRead a
    let bs ← fetchBytes s (a + 1) n
    return b :: bs

/-- The instruction at pc: opcode fetch (R143), decode, where `Unknown` raises UnknownOpcode and no operand byte is
fetched (R144), operand fetch (R145). A fetch reads memory like any other read, so it sees every earlier write (R93;
D16). The last case cannot arise: exactly the row's operand bytes were fetched. -/
def fetch (s : State) : Except Fault Instr := do
  let op ← s.memRead s.pc
  match decodeOpcode op with
  | none => .error .unknownOpcode
  | some row =>
    let opnds ← fetchBytes s (s.pc + 1) row.count
    match row.format.take opnds with
    | .ok (i, _) => .ok i
    | .error _ => .error .outOfRangeAddress

/-- Put bytes into memory from address a upward; an address above 255 does not exist and takes nothing (R80). -/
def placeBytes (m : Memory) (a : Nat) : List Byte → Memory
  | [] => m
  | b :: bs => placeBytes (if a > 255 then m else Memory.write m a b) (a + 1) bs

end Sys2Proof.Machine
end

