-- ==== Sys2Proof/Machine/Step.lean ====
section
/-! DEFINITION. One step of the machine: one cycle of the dispatch loop (spec/40_dispatch_cycle.md R141, R142, R153). -/

namespace Sys2Proof.Machine

/-- One cycle (R142) while Running: fetch, decode, operand fetch, then the register-index check and the execute phase in
the instruction's meaning. A fault of the common phases is taken like any other (R147). In Halted and Faulted "there is
no cycle, so nothing changes any more" (R152): the step answers the same state (log 2). -/
def step (s : State) : Host.Outcome State Fault Refusal :=
  match s.status with
  | .running =>
    match fetch s with
    | .ok i => exec i s
    | .error f => raise f s
  | .halted => .next s
  | .faulted _ => .next s

/-- `s` with the instruction of a table word stored at pc, where `step` fetches, and Running, since only a running
machine fetches (R141; log 14). Nothing else changes. -/
def State.withFetchWord (s : State) (nbits w : Nat) : State :=
  { s with mem := placeBytes s.mem s.pc (tableBytes nbits w), status := .running }

end Sys2Proof.Machine
end

