-- ==== Sys2Proof/Machine/Ports.lean ====
section
/-! DEFINITION. The CORE's ports to its host (spec/10_state.md R42, R54; spec/60_exceptions.md R294, R298;
spec/70_reset_and_hazards.md R312): load, probe and the status codes. The output port is `State.out`, and cancelling a
run changes no state (R295), so neither needs a function. -/

namespace Sys2Proof.Machine

/-- Launch (R312, R55): reset, then the loader's bytes at addresses 0, 1, …; the other cells keep `MEM_INIT`. An image
of more than 256 bytes is not a launch of this machine (R298; D19, log 14). -/
def launch (image : List Byte) : Option State :=
  if image.length ≤ 256 then some { State.reset with mem := placeBytes launchMemory 0 image } else none

/-- The 2-bit `state` register of a realisation (R42; D12, log 12): 0 Running, 1 Halted, 2 Faulted. -/
def Status.stateCode : Status → BitVec 2
  | .running => 0
  | .halted => 1
  | .faulted _ => 2

/-- The numeric code of a fault reason (R280, R42; D12, log 12). -/
def Fault.code : Fault → BitVec 3
  | .outOfRangeAddress => 1
  | .unknownOpcode => 2
  | .divisionByZero => 3
  | .unsupportedAluOperation => 4
  | .invalidRegisterIndex => 5

/-- The 3-bit `fault_code` register of a realisation: 0 while Running or Halted (R42; D12, log 12). -/
def Status.faultCode : Status → BitVec 3
  | .running => 0
  | .halted => 0
  | .faulted f => f.code

/-- A run has ended when the control state is Halted or Faulted (R154). -/
def State.ended (s : State) : Bool := s.status != .running

/-- What the trace probe shows (R294). -/
structure ProbeView where
  pc : Nat
  bytes : List (Option Byte)
  registers : List Byte
deriving DecidableEq, Repr

/-- The trace probe (R294): pc, "the next three memory bytes" and all eight registers. It is a reading, changes no state
and cannot fault (D21). Whether the three bytes begin at pc or at pc + 1 is open, and a byte past 255 shows as none
(N21, log 13). -/
def State.probe (s : State) : ProbeView where
  pc := s.pc
  bytes := [0, 1, 2].map fun k => (s.memRead (s.pc + Config.probeOffset.val + k)).toOption
  registers := s.x.toList

end Sys2Proof.Machine
end

