-- ==== Sys2Proof/Safety.lean ====
section
/-! DEFINITION. The terms the claims use: the invariant of the machine, what two states share (the frame of an
instruction), and the bytes at pc. -/

namespace Sys2Proof.Machine

/-- A register-index operand byte names this register (spec/30_encoding.md R112). -/
def Names (b : Byte) (i : RegIndex) : Prop := b.toNat = i.val

/-- Every register outside `ds` is unchanged. -/
def SameRegsExcept (ds : List RegIndex) (s t : State) : Prop := ∀ i, i ∉ ds → t.readReg i = s.readReg i

/-- Every byte of memory outside address `c` reads as before. -/
def SameMemoryExcept (c : Nat) (s t : State) : Prop := ∀ a, a ≠ c → t.memRead a = s.memRead a

/-- Every byte of memory reads as before. -/
def SameMemory (s t : State) : Prop := ∀ a, t.memRead a = s.memRead a

/-- The frame of a form that stores nothing and emits nothing: flags, memory, output and control state are unchanged and
so is every register outside `ds`. The program counter may change. -/
def RegisterFrame (ds : List RegIndex) (s t : State) : Prop :=
  SameRegsExcept ds s t ∧ t.fl = s.fl ∧ SameMemory s t ∧ t.out = s.out ∧ t.status = s.status

/-- These bytes stand in memory from pc upward, every one of them at an address of the space. -/
def CodeAt (s : State) (bs : List Byte) : Prop := fetchBytes s s.pc bs.length = .ok bs

/-- A two-register ALU instruction with opcode byte `op`: its three bytes decode to it, and when its operand bytes name
registers a and b it completes, writes `f x[a] x[b]` into register a, advances pc by 3 and changes nothing else
(spec/41_alu.md R172 to R174, spec/40_dispatch_cycle.md R149). -/
def WritesAlu2 (mk : Byte → Byte → Instr) (op : Byte) (f : Nat → Nat → Nat) : Prop :=
  ∀ (ra rb : Byte) (a b : RegIndex) (s : State), Names ra a → Names rb b →
    (∀ rest, decode (op :: ra :: rb :: rest) = .ok (mk ra rb, rest)) ∧
    ∃ t, exec (mk ra rb) s = .next t ∧
      (t.readReg a).toNat = f (s.readReg a).toNat (s.readReg b).toNat ∧
      t.pc = s.pc + 3 ∧ RegisterFrame [a] s t

/-- The invariant of the machine: memory is canonical (all 256 cells, spec/20_memory.md R80, R95), pc is at most 256
(spec/10_state.md R36) and the flags hold one of their legal values, 0 before the first CMP and then exactly one of E,
G, L (R38). -/
structure Inv (s : State) : Prop where
  memory : Memory.wf s.mem
  pcBound : s.pc ≤ Config.memSize
  flags : s.fl = 0b000 ∨ s.fl = 0b001 ∨ s.fl = 0b010 ∨ s.fl = 0b100

/-- A state no fault has stopped. -/
def NoFault (s : State) : Prop := ∀ f, s.status ≠ .faulted f

end Sys2Proof.Machine
end

