-- ==== Sys2Proof/Certificates/Slice0/Obligations.lean ====
section
/-! DEFINITION. The statements for the provers. Each docstring names the rule of spec/ it states. Where a clause rests on
a decision of spec/92_eei_decisions.md (the spec's own choice, D<n>) or on an inference the spec marks as derived, the
docstring says so and names the log entry. -/

open Sys2Proof Sys2Proof.Machine

/-! ### ALU instructions (spec/41_alu.md) -/

/-- R175, R176: ADD and MUL write the sum and the product modulo 256 into the first register, keep no carry or high
byte, and change nothing else. -/
def Obligations.AddAndMulWriteBackModulo256 : Prop :=
  WritesAlu2 .add 0xA0 (fun a b => (a + b) % 256) ∧ WritesAlu2 .mul 0xA2 (fun a b => (a * b) % 256)

/-- R178, R179, R180: AND, OR and XOR write the bitwise result into the first register and change nothing else. -/
def Obligations.BitwiseOperationsWriteBack : Prop :=
  WritesAlu2 .and 0xA8 (fun a b => a &&& b) ∧ WritesAlu2 .or 0xAA (fun a b => a ||| b) ∧
    WritesAlu2 .xor 0xAB (fun a b => a ^^^ b)

/-- R182, R183: SHL and SHR shift by the whole byte in the second register (not reduced modulo 8), write the result
back, and change nothing else; an amount of 8 or more gives 0. -/
def Obligations.ShiftsUseTheWholeByteAmount : Prop :=
  WritesAlu2 .shl 0xAC (fun a b => (a * 2 ^ b) % 256) ∧ WritesAlu2 .shr 0xAD (fun a b => a / 2 ^ b) ∧
    ∀ (ra rb : Byte) (a b : RegIndex) (s : State), Names ra a → Names rb b → 8 ≤ (s.readReg b).toNat →
      ∃ t u, exec (.shl ra rb) s = .next t ∧ t.readReg a = 0 ∧ exec (.shr ra rb) s = .next u ∧ u.readReg a = 0

/-- R181: NOT complements its own register (255 minus the value, no indirection), advances pc by 2 and changes nothing
else. -/
def Obligations.NotComplementsItsOwnRegister : Prop :=
  ∀ (r : Byte) (i : RegIndex) (s : State), Names r i →
    (∀ rest, decode (0x69 :: r :: rest) = .ok (.not r, rest)) ∧
    ∃ t, exec (.not r) s = .next t ∧ (t.readReg i).toNat = 255 - (s.readReg i).toNat ∧
      t.pc = s.pc + 2 ∧ RegisterFrame [i] s t

/-- 41_alu.md section 2 (MOD): MOD writes the remainder into the first register and changes nothing else when the divisor
is not 0; with a divisor of 0 (whatever the dividend) it raises DivisionByZero: the control state is
Faulted(DivisionByZero), nothing is written and pc stays. That the whole state but the control state is as before is the
spec's decision D8 (log 8). -/
def Obligations.ModWritesRemainderOrDividesByZero : Prop :=
  ∀ (ra rb : Byte) (a b : RegIndex) (s : State), Names ra a → Names rb b →
    (∀ rest, decode (0xA4 :: ra :: rb :: rest) = .ok (.mod ra rb, rest)) ∧
    ((s.readReg b).toNat ≠ 0 →
      ∃ t, exec (.mod ra rb) s = .next t ∧
        (t.readReg a).toNat = (s.readReg a).toNat % (s.readReg b).toNat ∧
        t.pc = s.pc + 3 ∧ RegisterFrame [a] s t) ∧
    ((s.readReg b).toNat = 0 →
      exec (.mod ra rb) s = .next { s with status := .faulted .divisionByZero })

/-- R177: CMP writes all three flags, exactly one of them set, by unsigned comparison, and writes no register. -/
def Obligations.CmpSetsExactlyOneFlag : Prop :=
  ∀ (ra rb : Byte) (a b : RegIndex) (s : State), Names ra a → Names rb b →
    (∀ rest, decode (0xA7 :: ra :: rb :: rest) = .ok (.cmp ra rb, rest)) ∧
    ∃ t, exec (.cmp ra rb) s = .next t ∧
      (flagE t.fl = true ↔ (s.readReg a).toNat = (s.readReg b).toNat) ∧
      (flagG t.fl = true ↔ (s.readReg b).toNat < (s.readReg a).toNat) ∧
      (flagL t.fl = true ↔ (s.readReg a).toNat < (s.readReg b).toNat) ∧
      t.pc = s.pc + 3 ∧ SameRegsExcept [] s t ∧ SameMemory s t ∧ t.out = s.out ∧ t.status = s.status

/-- R185, derived there from R175: adding 256 - b subtracts b modulo 256. -/
def Obligations.AddOfTheComplementSubtracts : Prop :=
  ∀ (ra rb : Byte) (a b : RegIndex) (s : State) (k : Nat), Names ra a → Names rb b → k ≤ 256 →
    (s.readReg b).toNat = (256 - k) % 256 →
    ∃ t, exec (.add ra rb) s = .next t ∧ ((t.readReg a).toNat + k) % 256 = (s.readReg a).toNat

/-! ### Load, print, halt (spec/42_register_and_output.md) -/

/-- R210: LDI stores the immediate unchanged, whatever its value and whichever the register, advances pc by 3 and changes
nothing else. -/
def Obligations.LdiStoresTheImmediate : Prop :=
  ∀ (r imm : Byte) (i : RegIndex) (s : State), Names r i →
    (∀ rest, decode (0x82 :: r :: imm :: rest) = .ok (.ldi r imm, rest)) ∧
    ∃ t, exec (.ldi r imm) s = .next t ∧ t.readReg i = imm ∧ t.pc = s.pc + 3 ∧ RegisterFrame [i] s t

/-- 42_register_and_output.md (PRN): PRN appends the register's byte to the output channel, advances pc by 2 and changes
nothing else. That the core emits the byte itself is the spec's decision D13 (log 11). -/
def Obligations.PrnEmitsTheRegister : Prop :=
  ∀ (r : Byte) (i : RegIndex) (s : State), Names r i →
    (∀ rest, decode (0x47 :: r :: rest) = .ok (.prn r, rest)) ∧
    ∃ t, exec (.prn r) s = .next t ∧ t.out = s.out ++ [s.readReg i] ∧ t.pc = s.pc + 2 ∧
      SameRegsExcept [] s t ∧ t.fl = s.fl ∧ SameMemory s t ∧ t.status = s.status

/-- 42_register_and_output.md (HLT): HLT enters Halted and writes no register, flag, memory cell or output. That pc
advances by 1 is the spec's decision D10 (log 10). -/
def Obligations.HltAdvancesAndHalts : Prop :=
  ∀ s : State, (∀ rest, decode (0x01 :: rest) = .ok (.hlt, rest)) ∧
    ∃ t, exec .hlt s = .next t ∧ t.status = .halted ∧ t.pc = s.pc + 1 ∧
      SameRegsExcept [] s t ∧ t.fl = s.fl ∧ SameMemory s t ∧ t.out = s.out

/-- 42_register_and_output.md (LDI, PRN), 95_test_vectors.md W1: `LDI r,v` followed by `PRN r` emits exactly v, for
every register and every value. The byte form of the output is D13 (log 11). -/
def Obligations.LdiThenPrnEmitsTheValue : Prop :=
  ∀ (r v : Byte) (s : State), r.toNat ≤ 7 →
    ∃ t u, exec (.ldi r v) s = .next t ∧ exec (.prn r) t = .next u ∧ u.out = s.out ++ [v] ∧ u.pc = s.pc + 5

/-! ### Stack instructions (spec/43_stack.md) -/

/-- 43_stack.md (PUSH): PUSH decrements SP modulo 256 and then stores the register in the cell SP names, with no stack
check; every other register, byte of memory, flag, the output and the control state are unchanged. For R7 the value
stored is the decremented SP: the spec's decision D7 (log 7). -/
def Obligations.PushStoresBelowTheStackTop : Prop :=
  ∀ (r : Byte) (i : RegIndex) (s : State), Names r i →
    (∀ rest, decode (0x45 :: r :: rest) = .ok (.push r, rest)) ∧
    ∃ t, exec (.push r) s = .next t ∧
      t.sp.toNat = (s.sp.toNat + 255) % 256 ∧
      t.memRead t.sp.toNat = .ok (if i = SP then t.sp else s.readReg i) ∧
      t.pc = s.pc + 2 ∧ SameRegsExcept [SP] s t ∧ SameMemoryExcept (s.pushDecrement).sp.toNat s t ∧
      t.fl = s.fl ∧ t.out = s.out ∧ t.status = s.status

/-- 43_stack.md (POP): POP loads the register from the cell SP names and increments SP modulo 256, with no stack check;
memory and everything else are unchanged. For R7 the loaded SP is the one incremented: D7 (log 7). -/
def Obligations.PopLoadsTheStackTop : Prop :=
  ∀ (r : Byte) (i : RegIndex) (s : State), Names r i →
    (∀ rest, decode (0x46 :: r :: rest) = .ok (.pop r, rest)) ∧
    ∃ t v, exec (.pop r) s = .next t ∧ s.memRead s.sp.toNat = .ok v ∧
      (i ≠ SP → t.readReg i = v ∧ t.sp.toNat = (s.sp.toNat + 1) % 256) ∧
      (i = SP → t.sp.toNat = (v.toNat + 1) % 256) ∧
      t.pc = s.pc + 2 ∧ RegisterFrame [i, SP] s t

/-- 43_stack.md section 2 (round trip, marked there as derived): PUSH r then POP q, both registers other than R7, leaves
q with r's value and SP as it was; the pushed cell keeps the value. -/
def Obligations.PushThenPopRoundTrips : Prop :=
  ∀ (r q : Byte) (i j : RegIndex) (s : State), Names r i → Names q j → i ≠ SP → j ≠ SP →
    ∃ t u, exec (.push r) s = .next t ∧ exec (.pop q) t = .next u ∧
      u.readReg j = s.readReg i ∧ u.sp = s.sp ∧ u.memRead t.sp.toNat = .ok (s.readReg i) ∧
      SameRegsExcept [j] s u ∧ SameMemoryExcept t.sp.toNat s u ∧ u.pc = s.pc + 4

/-! ### Control transfer (spec/44_control_transfer.md) -/

/-- 44_control_transfer.md (CALL): CALL pushes pc0 + 2 and jumps to the register's value, changing nothing else. With a
return address above 255 it faults with OutOfRangeAddress and writes nothing: D5 (log 5), D8 (log 8). For R7 the target
is the decremented SP: D7 (log 7). -/
def Obligations.CallPushesTheReturnAddress : Prop :=
  ∀ (r : Byte) (i : RegIndex) (s : State), Names r i →
    (∀ rest, decode (0x50 :: r :: rest) = .ok (.call r, rest)) ∧
    (s.pc + 2 ≤ 255 →
      ∃ t v, exec (.call r) s = .next t ∧ t.sp.toNat = (s.sp.toNat + 255) % 256 ∧
        t.memRead t.sp.toNat = .ok v ∧ v.toNat = s.pc + 2 ∧
        t.pc = (if i = SP then t.sp else s.readReg i).toNat ∧
        SameRegsExcept [SP] s t ∧ SameMemoryExcept (s.pushDecrement).sp.toNat s t ∧
        t.fl = s.fl ∧ t.out = s.out ∧ t.status = s.status) ∧
    (255 < s.pc + 2 → exec (.call r) s = .next { s with status := .faulted .outOfRangeAddress })

/-- R252: RET pops the byte SP names into pc and increments SP modulo 256, and changes nothing else. -/
def Obligations.RetPopsThePc : Prop :=
  ∀ s : State, (∀ rest, decode (0x11 :: rest) = .ok (.ret, rest)) ∧
    ∃ t v, exec .ret s = .next t ∧ s.memRead s.sp.toNat = .ok v ∧ t.pc = v.toNat ∧
      t.sp.toNat = (s.sp.toNat + 1) % 256 ∧ RegisterFrame [SP] s t

/-- 44_control_transfer.md (CALL, RET), 95_test_vectors.md W5: RET after CALL returns to the instruction after the CALL
with SP, the other registers and the flags as before. Needs the return address to be a byte (D5, log 5). -/
def Obligations.RetReturnsAfterTheCall : Prop :=
  ∀ (r : Byte) (s : State), r.toNat ≤ 7 → s.pc + 2 ≤ 255 →
    ∃ t u, exec (.call r) s = .next t ∧ exec .ret t = .next u ∧ u.pc = s.pc + 2 ∧ u.sp = s.sp ∧
      SameRegsExcept [] s u ∧ u.fl = s.fl

/-- R253: JMP sets pc to the register's value, reads and writes no flag, and changes nothing else. -/
def Obligations.JmpSetsThePc : Prop :=
  ∀ (r : Byte) (i : RegIndex) (s : State), Names r i →
    (∀ rest, decode (0x54 :: r :: rest) = .ok (.jmp r, rest)) ∧
    ∃ t, exec (.jmp r) s = .next t ∧ t.pc = (s.readReg i).toNat ∧ RegisterFrame [] s t

/-- 44_control_transfer.md (JEQ, JNE): JEQ jumps to the register's value when E is set and otherwise advances pc by 2; JNE
the other way round; neither changes anything else. -/
def Obligations.ConditionalJumpsFollowE : Prop :=
  ∀ (r : Byte) (i : RegIndex) (s : State), Names r i →
    (∀ rest, decode (0x55 :: r :: rest) = .ok (.jeq r, rest) ∧ decode (0x56 :: r :: rest) = .ok (.jne r, rest)) ∧
    ∃ t u, exec (.jeq r) s = .next t ∧ exec (.jne r) s = .next u ∧
      (s.fl.getLsbD 0 = true → t.pc = (s.readReg i).toNat ∧ u.pc = s.pc + 2) ∧
      (s.fl.getLsbD 0 = false → t.pc = s.pc + 2 ∧ u.pc = (s.readReg i).toNat) ∧
      RegisterFrame [] s t ∧ RegisterFrame [] s u

/-- 44_control_transfer.md section 3 and 10_state.md section 4 (marked there as derived): of the flags a step reads E
alone. Two states that differ only in flags with the same E step to states that are equal outside the flags, and whose
flags are the same (CMP wrote them) or are each state's own, kept. In both cases the next states agree on E again. -/
def Obligations.OnlyTheEqualFlagIsRead : Prop :=
  ∀ (s t : State) (f : Flags), flagE f = flagE s.fl → step s = .next t →
    ∃ g, step { s with fl := f } = .next { t with fl := g } ∧ (g = t.fl ∨ (g = f ∧ t.fl = s.fl))

/-- 44_control_transfer.md (JMP), 40_dispatch_cycle.md section 2 (R154): a JMP to itself repeats forever; the run never
ends. -/
def Obligations.JumpToItselfNeverEnds : Prop :=
  ∀ (r : Byte) (i : RegIndex) (s : State), s.status = .running → CodeAt s [0x54, r] → Names r i →
    (s.readReg i).toNat = s.pc → ∀ k, ∃ t, core.run k s = .next t ∧ t.status = .running ∧ t.pc = s.pc

/-! ### Register-index check and the dispatch cycle (spec/30_encoding.md, spec/40_dispatch_cycle.md) -/

/-- 30_encoding.md section 4, 40_dispatch_cycle.md section 2: an instruction with a register-index operand byte of 8 to
255 raises InvalidRegisterIndex and changes nothing else, whether or not the register would be read. The fault is the
spec's decision D6 (log 6), its rank before every execute-phase fault D9 (log 9), "nothing else" D8 (log 8). -/
def Obligations.IllegalRegisterIndexFaults : Prop :=
  ∀ (i : Instr) (s : State), i.wellFormed = false →
    exec i s = .next { s with status := .faulted .invalidRegisterIndex }

/-- 60_exceptions.md (fault reasons): an instruction with legal operands completes, and faults in its execute phase only
as MOD with a zero divisor or as CALL with a return address above 255 (D5, log 5). -/
def Obligations.LegalInstructionsFaultOnlyAsListed : Prop :=
  ∀ (i : Instr) (s : State), i.wellFormed = true →
    ∃ t, exec i s = .next t ∧
      (t.status = s.status ∨ (i = .hlt ∧ t.status = .halted) ∨
        (t.status = .faulted .divisionByZero ∧
          ∃ ra rb b, i = .mod ra rb ∧ Names rb b ∧ s.readReg b = 0) ∨
        (t.status = .faulted .outOfRangeAddress ∧ (∃ r, i = .call r) ∧ 255 < s.pc + 2))

/-- 40_dispatch_cycle.md section 2 (execute): when the bytes at pc decode to an instruction, a Running machine's step is
that instruction's meaning, and nothing is added around it. -/
def Obligations.StepRunsTheDecodedInstruction : Prop :=
  ∀ (s : State) (bs rest : List Byte) (i : Instr), s.status = .running → CodeAt s bs →
    decode bs = .ok (i, rest) → step s = exec i s

/-- 40_dispatch_cycle.md section 2 (fetch): with pc above 255 the opcode fetch raises OutOfRangeAddress (pc does not wrap:
D4, log 4). -/
def Obligations.FetchAbove255Faults : Prop :=
  ∀ s : State, s.status = .running → 255 < s.pc →
    ∃ t, step s = .next t ∧ t.status = .faulted .outOfRangeAddress

/-- R144: an opcode byte that is none of the table's twenty stops the run with UnknownOpcode at once; no operand byte is
needed, so this holds up to address 255. -/
def Obligations.UnknownOpcodeFaults : Prop :=
  ∀ (s : State) (op : Byte), s.status = .running → s.memRead s.pc = .ok op →
    op.toNat ∉ [0x82, 0x47, 0x01, 0xA2, 0xA0, 0xA7, 0x46, 0x45, 0x50, 0x11,
      0x54, 0x55, 0x56, 0xA8, 0xAA, 0xAB, 0x69, 0xAC, 0xAD, 0xA4] →
    ∃ t, step s = .next t ∧ t.status = .faulted .unknownOpcode

/-- R145: exactly n operand bytes are read, from pc0 + 1 up; an instruction with n operands whose opcode stands at an
address above 255 - n faults with OutOfRangeAddress, and one that stands no higher fetches its instruction, which is built
from exactly those bytes. -/
def Obligations.OperandFetchStaysBelow256 : Prop :=
  ∀ (s : State) (op : Byte) (row : Row), s.status = .running → s.memRead s.pc = .ok op →
    decodeOpcode op = some row →
    (255 < s.pc + row.count → ∃ t, step s = .next t ∧ t.status = .faulted .outOfRangeAddress) ∧
    (s.pc + row.count ≤ 255 → ∃ i opnds, fetch s = .ok i ∧ encode i = op :: opnds ∧ opnds.length = row.count ∧
      ∀ (k : Nat) (b : Byte), opnds[k]? = some b → s.memRead (s.pc + 1 + k) = .ok b)

/-- 60_exceptions.md section 3 (D9, log 9): an instruction whose bytes all lie in memory and whose register index is
illegal faults with InvalidRegisterIndex; with a byte beyond 255 the operand-fetch fault comes first, whatever the
operand bytes that could be read. -/
def Obligations.OperandFetchFaultPrecedesIndexFault : Prop :=
  ∀ (s : State) (op : Byte) (row : Row), s.status = .running → s.memRead s.pc = .ok op →
    decodeOpcode op = some row →
    (255 < s.pc + row.count → step s = .next { s with status := .faulted .outOfRangeAddress }) ∧
    ∀ i, fetch s = .ok i → i.wellFormed = false →
      step s = .next { s with status := .faulted .invalidRegisterIndex }

/-- 40_dispatch_cycle.md section 2 (fault), 60_exceptions.md section 4: faults are precise. A Running machine whose step
ends Faulted changes nothing but the control state. The spec's decision D8 (log 8). -/
def Obligations.FaultsArePrecise : Prop :=
  ∀ (s t : State) (f : Fault), s.status = .running → step s = .next t → t.status = .faulted f →
    t = { s with status := .faulted f }

/-- 40_dispatch_cycle.md section 2 (terminal states): in Halted and Faulted nothing changes any more, however many steps
are asked for. The spec's decision D11; that the step then answers the same state is the model's reading (log 2). -/
def Obligations.StoppedMachineNeverChanges : Prop :=
  ∀ (s : State), s.status ≠ .running → ∀ k, core.run k s = .next s

/-- 40_dispatch_cycle.md section 2 (exhaustive dispatch), 60_exceptions.md section 1: every step of every state answers a
next state; the machine has no behaviour outside the spec's states (log 3). -/
def Obligations.EveryStepAnswersANextState : Prop :=
  ∀ s : State, ∃ t, step s = .next t

/-- 40_dispatch_cycle.md sections 1 and 2 (transitions, halt, terminal states): from Running the machine becomes Halted
exactly by HLT, becomes Faulted by every fault of fetching, and stays Running after every other instruction that does
not fault; it never leaves Halted or Faulted. (The model's reading of "no step": log 2.) -/
def Obligations.ControlStateTransitions : Prop :=
  ∀ s t : State, step s = .next t →
    (s.status ≠ .running → t.status = s.status) ∧
    (s.status = .running →
      (t.status = .halted ↔ fetch s = .ok .hlt) ∧
      (∀ f, fetch s = .error f → t.status = .faulted f) ∧
      (∀ i, fetch s = .ok i → i ≠ .hlt → NoFault t → t.status = .running))

/-- 40_dispatch_cycle.md (default advance; pc does not wrap by D4, log 4; HLT's advance is D10, log 10): an instruction
that completes and is no explicit setter leaves pc at pc0 plus its length; so do JEQ with E clear and JNE with E set. -/
def Obligations.DefaultAdvanceByLength : Prop :=
  ∀ (s t : State) (i : Instr), s.status = .running → fetch s = .ok i → step s = .next t → NoFault t →
    (∀ r, i ≠ .jmp r ∧ i ≠ .call r) → i ≠ .ret →
    (∀ r, i = .jeq r → flagE s.fl = false) → (∀ r, i = .jne r → flagE s.fl = true) →
    t.pc = s.pc + i.length

/-! ### Whole-machine rules (spec/10_state.md, spec/20_memory.md, spec/60_exceptions.md) -/

/-- 10_state.md section 4, 41_alu.md section 1 (marked there as derived): only CMP changes the flags. -/
def Obligations.OnlyCmpChangesFlags : Prop :=
  ∀ s t : State, step s = .next t → t.fl ≠ s.fl → ∃ ra rb, fetch s = .ok (.cmp ra rb)

/-- 10_state.md section 6 and 60_exceptions.md section 6 (D13, log 11): only PRN emits, and it emits one byte, the value
of the register it names. -/
def Obligations.OnlyPrnEmits : Prop :=
  ∀ s t : State, step s = .next t → t.out ≠ s.out →
    ∃ r i, fetch s = .ok (.prn r) ∧ Names r i ∧ t.out = s.out ++ [s.readReg i]

/-- 60_exceptions.md section 6: the output channel cannot be read. What has been emitted so far influences nothing: a step
appends to it what it would have appended to any other. -/
def Obligations.OutputIsWriteOnly : Prop :=
  ∀ (s t : State) (o : List Byte), step s = .next t →
    ∃ new, t.out = s.out ++ new ∧ step { s with out := o } = .next { t with out := o ++ new }

/-- 20_memory.md section 1 (marked there as derived): a step changes memory only as PUSH or CALL, and then only the cell
at SP - 1 modulo 256. -/
def Obligations.OnlyPushAndCallWriteMemory : Prop :=
  ∀ (s t : State) (a : Nat), step s = .next t → t.memRead a ≠ s.memRead a →
    a = (s.sp.toNat + 255) % 256 ∧ ∃ r, fetch s = .ok (.push r) ∨ fetch s = .ok (.call r)

/-- 10_state.md section 2 (register table, marked there as derived): a step changes a register only if the instruction
names it as its destination or it is SP and the instruction is PUSH, POP, CALL or RET. -/
def Obligations.OnlyDestinationRegistersChange : Prop :=
  ∀ (s t : State) (j : RegIndex), step s = .next t → t.readReg j ≠ s.readReg j →
    ∃ i, fetch s = .ok i ∧
      ((j = SP ∧ (i = .ret ∨ ∃ r, i = .push r ∨ i = .pop r ∨ i = .call r)) ∨
        ∃ d, (i.operands.head?.map Prod.snd) = some d ∧ Names d j ∧
          ∀ r q, i ≠ .prn r ∧ i ≠ .cmp r q ∧ i ≠ .jmp r ∧ i ≠ .jeq r ∧ i ≠ .jne r ∧ i ≠ .push r ∧ i ≠ .call r)

/-- 60_exceptions.md sections 1 and 3: a Running machine's step ends Faulted(DivisionByZero) exactly when its instruction
is MOD with legal operands and a divisor of 0. That an illegal operand of MOD is a fault of another reason is the spec's
decision D6 (log 6), and that this reason is the one recorded is D9 (log 9). -/
def Obligations.DivisionByZeroOnlyByMod : Prop :=
  ∀ s t : State, s.status = .running → step s = .next t →
    (t.status = .faulted .divisionByZero ↔
      ∃ ra rb a b, fetch s = .ok (.mod ra rb) ∧ Names ra a ∧ Names rb b ∧ s.readReg b = 0)

/-- 60_exceptions.md section 1 (marked there as derived; the selector is D14, log 15): the ALU rejects every selector
outside its ten, and no step of a Running machine ever ends so. -/
def Obligations.UnsupportedAluOperationIsUnreachable : Prop :=
  (∀ op a b : Byte, op.toNat ∉ [0xA0, 0xA2, 0xA7, 0xA8, 0xAA, 0xAB, 0x69, 0xAC, 0xAD, 0xA4] →
    aluApply op a b = .fault .unsupportedAluOperation) ∧
  ∀ s t : State, s.status = .running → step s = .next t → t.status ≠ .faulted .unsupportedAluOperation

/-- R34: a register write stores the value modulo 256, and only in that register. -/
def Obligations.RegisterWriteIsModulo256 : Prop :=
  ∀ (s : State) (i : RegIndex) (v : Nat),
    ((s.writeReg i v).readReg i).toNat = v % 256 ∧ (s.writeReg i v).pc = s.pc ∧ RegisterFrame [i] s (s.writeReg i v)

/-- R81: a read at an address above 255 raises OutOfRangeAddress and does not wrap; every other read gives a byte, and in
a canonical memory it is the byte its cell holds. -/
def Obligations.MemReadIsRangeChecked : Prop :=
  ∀ (s : State) (a : Nat), (255 < a → s.memRead a = .error .outOfRangeAddress) ∧
    (a ≤ 255 → ∃ b, s.memRead a = .ok b) ∧
    (Memory.wf s.mem → ∀ b, (a, b) ∈ s.mem → s.memRead a = .ok b)

/-- 20_memory.md sections 1 and 4: a read gives the byte last written to its address, and a write leaves every other
address and everything else alone; an address above 255 is rejected, and so is a value above 255 (D5, log 5). -/
def Obligations.MemoryReadsWhatWasWritten : Prop :=
  ∀ (s : State) (a v : Nat),
    (a ≤ 255 → v ≤ 255 →
      ∃ t b, s.memWrite a v = .ok t ∧ t.memRead a = .ok b ∧ b.toNat = v ∧ SameMemoryExcept a s t ∧
        SameRegsExcept [] s t ∧ t.pc = s.pc ∧ t.fl = s.fl ∧ t.out = s.out ∧ t.status = s.status) ∧
    (255 < a ∨ 255 < v → s.memWrite a v = .error .outOfRangeAddress)

/-- 20_memory.md section 4 (fetch coherence, D16, log 18): a PUSH of HLT's opcode over the next instruction's first byte
is seen by the very next fetch: the machine halts. -/
def Obligations.PushedOpcodeIsFetchedNext : Prop :=
  ∀ (r : Byte) (i : RegIndex) (s : State), s.status = .running → CodeAt s [0x45, r] → Names r i → i ≠ SP →
    s.readReg i = 0x01 → s.sp.toNat = s.pc + 3 →
    ∃ t u, step s = .next t ∧ step t = .next u ∧ u.status = .halted

/-! ### Invariant and reset (spec/10_state.md, spec/70_reset_and_hazards.md) -/

/-- 10_state.md sections 3 and 4, 20_memory.md section 4 (pc's bound and the flags' legal values are marked there as
derived; D4, log 4): every step keeps the invariant, from every state that has it. -/
def Obligations.InvariantIsKeptByEveryStep : Prop :=
  ∀ s t : State, Inv s → step s = .next t → Inv t

/-- 10_state.md section 9: the reset state has the invariant. -/
def Obligations.InvariantHoldsAtReset : Prop := Inv State.reset

/-- 10_state.md section 9: "Initial state: `Running`, PC = 0, SP = 244, Flags = 0, all general registers = 0"; the output
is empty (D24, log 11) and memory reads as the open parameter MEM_INIT (D3, log 1). -/
def Obligations.ResetValues : Prop :=
  State.reset.pc = 0 ∧ State.reset.sp.toNat = 244 ∧ (∀ i, i ≠ SP → State.reset.readReg i = 0) ∧
    State.reset.fl = 0b000 ∧ State.reset.status = .running ∧ State.reset.out = [] ∧
    ∀ a, a ≤ 255 → State.reset.memRead a = .ok (Config.memInit a)

/-- R10: register index 7 is the stack pointer and is initialized to 0xF4. -/
def Obligations.StackPointerResetsTo244 : Prop :=
  State.reset.readReg 7 = 0xF4 ∧ ∀ s : State, s.sp = s.readReg 7

/-- 70_reset_and_hazards.md section 2, 60_exceptions.md section 6 (D3, log 1; D19, log 14): a launch puts the image's
bytes at addresses 0, 1, … over MEM_INIT and leaves the rest as reset; an image of more than 256 bytes is no launch. -/
def Obligations.LaunchPlacesTheImage : Prop :=
  ∀ image : List Byte,
    (image.length ≤ 256 → ∃ s, launch image = some s ∧ Inv s ∧
      (∀ (k : Nat) (b : Byte), image[k]? = some b → s.memRead k = .ok b) ∧
      (∀ a, image.length ≤ a → a ≤ 255 → s.memRead a = .ok (Config.memInit a)) ∧
      SameRegsExcept [] State.reset s ∧ s.pc = 0 ∧ s.fl = 0b000 ∧ s.status = .running ∧ s.out = []) ∧
    (256 < image.length → launch image = none)

/-- 10_state.md section 5 (D12, log 12): the realisation's two registers are 0 at reset, never hold an unused value, and
together determine the control state. -/
def Obligations.StatusCodesAreFaithful : Prop :=
  State.reset.status.stateCode = 0 ∧ State.reset.status.faultCode = 0 ∧
    (∀ st : Status, st.stateCode ≠ 3 ∧ st.faultCode ≠ 6 ∧ st.faultCode ≠ 7) ∧
    ∀ st st' : Status, st.stateCode = st'.stateCode → st.faultCode = st'.faultCode → st = st'

/-! ### Encoding (spec/30_encoding.md) -/

/-- 30_encoding.md sections 1 to 3: decoding and encoding agree in both directions. Every instruction, with every operand
byte, decodes back from its encoding and leaves the bytes after it; and whatever decodes to an instruction begins with
exactly its encoding. -/
def Obligations.DecodeAndEncodeAgree : Prop :=
  (∀ (i : Instr) (rest : List Byte), decode (encode i ++ rest) = .ok (i, rest)) ∧
  ∀ (bs rest : List Byte) (i : Instr), decode bs = .ok (i, rest) → bs = encode i ++ rest

/-- R116: the twenty listed bytes decode to their rows, by whole-byte match; each of the other 236 decodes to Unknown. -/
def Obligations.OpcodeTableIsExact : Prop :=
  [0x82, 0x47, 0x01, 0xA2, 0xA0, 0xA7, 0x46, 0x45, 0x50, 0x11, 0x54, 0x55, 0x56, 0xA8, 0xAA, 0xAB, 0x69, 0xAC, 0xAD,
    0xA4].map (fun op : Byte => (decodeOpcode op).map fun row => (row.opcode, row.mnemonic, row.format.kinds)) =
  [some (0x82, "LDI", [.reg, .imm]), some (0x47, "PRN", [.reg]), some (0x01, "HLT", []),
    some (0xA2, "MUL", [.reg, .reg]), some (0xA0, "ADD", [.reg, .reg]), some (0xA7, "CMP", [.reg, .reg]),
    some (0x46, "POP", [.reg]), some (0x45, "PUSH", [.reg]), some (0x50, "CALL", [.reg]), some (0x11, "RET", []),
    some (0x54, "JMP", [.reg]), some (0x55, "JEQ", [.reg]), some (0x56, "JNE", [.reg]),
    some (0xA8, "AND", [.reg, .reg]), some (0xAA, "OR", [.reg, .reg]), some (0xAB, "XOR", [.reg, .reg]),
    some (0x69, "NOT", [.reg]), some (0xAC, "SHL", [.reg, .reg]), some (0xAD, "SHR", [.reg, .reg]),
    some (0xA4, "MOD", [.reg, .reg])] ∧
  ∀ op : Byte, op ∉ [0x82, 0x47, 0x01, 0xA2, 0xA0, 0xA7, 0x46, 0x45, 0x50, 0x11, 0x54, 0x55, 0x56, 0xA8, 0xAA, 0xAB,
    0x69, 0xAC, 0xAD, 0xA4] → decodeOpcode op = none

/-- 30_encoding.md section 3: words written out bit by bit from the table decode to the instructions they stand for. -/
def Obligations.WrittenOutWordsDecode : Prop :=
  decodeTableWord 24 0b000010000000000010000010 = some (.ldi 0 8) ∧
    decodeTableWord 24 0b000000010000001010100000 = some (.add 2 1) ∧
    decodeTableWord 16 0b0000010101000101 = some (.push 5) ∧
    decodeTableWord 16 0b0000001101010101 = some (.jeq 3) ∧
    decodeTableWord 8 0b00010001 = some .ret ∧ decodeTableWord 8 0b00000000 = none
end

