-- ==== Sys2Proof/Laws/State.lean ====
section
/-! SUPPORT. One lemma for each field and each named update of the state, so that no proof unfolds an update. -/

namespace Sys2Proof.Machine

/-- A byte read as a number and stored again is the same byte. -/
@[simp] theorem ofNat_toNat_byte (b : Byte) : BitVec.ofNat 8 b.toNat = b := by
  simp

variable (s : State) (i j : RegIndex) (v n : Nat) (f : Flags) (st : Status) (b : Byte)

/-! ### The fields after each update -/

@[simp] theorem writeReg_mem : (s.writeReg i v).mem = s.mem := rfl
@[simp] theorem writeReg_fl : (s.writeReg i v).fl = s.fl := rfl
@[simp] theorem writeReg_pc : (s.writeReg i v).pc = s.pc := rfl
@[simp] theorem writeReg_status : (s.writeReg i v).status = s.status := rfl
@[simp] theorem writeReg_out : (s.writeReg i v).out = s.out := rfl

@[simp] theorem setFlags_mem : (s.setFlags f).mem = s.mem := rfl
@[simp] theorem setFlags_x : (s.setFlags f).x = s.x := rfl
@[simp] theorem setFlags_fl : (s.setFlags f).fl = f := rfl
@[simp] theorem setFlags_pc : (s.setFlags f).pc = s.pc := rfl
@[simp] theorem setFlags_status : (s.setFlags f).status = s.status := rfl
@[simp] theorem setFlags_out : (s.setFlags f).out = s.out := rfl

@[simp] theorem setPc_mem : (s.setPc n).mem = s.mem := rfl
@[simp] theorem setPc_x : (s.setPc n).x = s.x := rfl
@[simp] theorem setPc_fl : (s.setPc n).fl = s.fl := rfl
@[simp] theorem setPc_pc : (s.setPc n).pc = n := rfl
@[simp] theorem setPc_status : (s.setPc n).status = s.status := rfl
@[simp] theorem setPc_out : (s.setPc n).out = s.out := rfl

@[simp] theorem setStatus_mem : (s.setStatus st).mem = s.mem := rfl
@[simp] theorem setStatus_x : (s.setStatus st).x = s.x := rfl
@[simp] theorem setStatus_fl : (s.setStatus st).fl = s.fl := rfl
@[simp] theorem setStatus_pc : (s.setStatus st).pc = s.pc := rfl
@[simp] theorem setStatus_status : (s.setStatus st).status = st := rfl
@[simp] theorem setStatus_out : (s.setStatus st).out = s.out := rfl

@[simp] theorem emit_mem : (s.emit b).mem = s.mem := rfl
@[simp] theorem emit_x : (s.emit b).x = s.x := rfl
@[simp] theorem emit_fl : (s.emit b).fl = s.fl := rfl
@[simp] theorem emit_pc : (s.emit b).pc = s.pc := rfl
@[simp] theorem emit_status : (s.emit b).status = s.status := rfl
@[simp] theorem emit_out : (s.emit b).out = s.out ++ [b] := rfl

/-! ### Reading a register after each update -/

theorem readReg_writeReg :
    (s.writeReg i v).readReg j = if i = j then BitVec.ofNat 8 v else s.readReg j := by
  simp only [State.readReg, State.writeReg, Vector.getElem_set, Fin.ext_iff]

@[simp] theorem readReg_writeReg_self : (s.writeReg i v).readReg i = BitVec.ofNat 8 v := by
  simp [readReg_writeReg]

theorem readReg_writeReg_of_ne {i j : RegIndex} (h : j ≠ i) : (s.writeReg i v).readReg j = s.readReg j := by
  simp [readReg_writeReg, Ne.symm h]

@[simp] theorem readReg_setFlags : (s.setFlags f).readReg i = s.readReg i := rfl
@[simp] theorem readReg_setPc : (s.setPc n).readReg i = s.readReg i := rfl
@[simp] theorem readReg_setStatus : (s.setStatus st).readReg i = s.readReg i := rfl
@[simp] theorem readReg_emit : (s.emit b).readReg i = s.readReg i := rfl

@[simp] theorem sp_setFlags : (s.setFlags f).sp = s.sp := rfl
@[simp] theorem sp_setPc : (s.setPc n).sp = s.sp := rfl
@[simp] theorem sp_setStatus : (s.setStatus st).sp = s.sp := rfl
@[simp] theorem sp_emit : (s.emit b).sp = s.sp := rfl

theorem sp_writeReg : (s.writeReg i v).sp = if i = SP then BitVec.ofNat 8 v else s.sp :=
  readReg_writeReg s i SP v

/-! ### Reading memory after each update that leaves memory alone -/

@[simp] theorem memRead_writeReg : (s.writeReg i v).memRead n = s.memRead n := rfl
@[simp] theorem memRead_setFlags : (s.setFlags f).memRead n = s.memRead n := rfl
@[simp] theorem memRead_setPc : (s.setPc v).memRead n = s.memRead n := rfl
@[simp] theorem memRead_setStatus : (s.setStatus st).memRead n = s.memRead n := rfl
@[simp] theorem memRead_emit : (s.emit b).memRead n = s.memRead n := rfl

/-! ### The stack pointer's two updates -/

@[simp] theorem pushDecrement_sp : s.pushDecrement.sp = s.sp - 1 := by
  simp only [State.pushDecrement, sp_writeReg, if_true, ofNat_toNat_byte]

@[simp] theorem pushDecrement_mem : s.pushDecrement.mem = s.mem := rfl
@[simp] theorem pushDecrement_fl : s.pushDecrement.fl = s.fl := rfl
@[simp] theorem pushDecrement_pc : s.pushDecrement.pc = s.pc := rfl
@[simp] theorem pushDecrement_status : s.pushDecrement.status = s.status := rfl
@[simp] theorem pushDecrement_out : s.pushDecrement.out = s.out := rfl
@[simp] theorem memRead_pushDecrement : s.pushDecrement.memRead n = s.memRead n := rfl

@[simp] theorem popIncrement_sp : s.popIncrement.sp = s.sp + 1 := by
  simp only [State.popIncrement, sp_writeReg, if_true, ofNat_toNat_byte]

@[simp] theorem popIncrement_mem : s.popIncrement.mem = s.mem := rfl
@[simp] theorem popIncrement_fl : s.popIncrement.fl = s.fl := rfl
@[simp] theorem popIncrement_pc : s.popIncrement.pc = s.pc := rfl
@[simp] theorem popIncrement_status : s.popIncrement.status = s.status := rfl
@[simp] theorem popIncrement_out : s.popIncrement.out = s.out := rfl
@[simp] theorem memRead_popIncrement : s.popIncrement.memRead n = s.memRead n := rfl

theorem readReg_pushDecrement : s.pushDecrement.readReg i = if i = SP then s.sp - 1 else s.readReg i := by
  simp only [State.pushDecrement, readReg_writeReg, eq_comm (a := SP), ofNat_toNat_byte]

theorem readReg_popIncrement : s.popIncrement.readReg i = if i = SP then s.sp + 1 else s.readReg i := by
  simp only [State.popIncrement, readReg_writeReg, eq_comm (a := SP), ofNat_toNat_byte]

end Sys2Proof.Machine
end

