-- ==== Sys2Proof/Laws/Memory.lean ====
section
/-! SUPPORT. The laws of memory: a read after a write to the same address gives the value written, a write leaves every
other address alone, and every operation over memory keeps the canonical form. -/

namespace Sys2Proof.Machine

theorem lookup_write_self (m : Memory) (a : Nat) (v : Byte) : Memory.lookup (Memory.write m a v) a = some v := by
  induction m with
  | nil => simp [Memory.write, Memory.lookup]
  | cons c m ih =>
    simp only [Memory.write]
    split
    · simp [Memory.lookup]
    · split
      · simp [Memory.lookup]
      · simpa [Memory.lookup, Ne.symm ‹_›] using ih

theorem lookup_write_of_ne {a b : Nat} (h : b ≠ a) (m : Memory) (v : Byte) :
    Memory.lookup (Memory.write m a v) b = Memory.lookup m b := by
  induction m with
  | nil => simp [Memory.write, Memory.lookup, h.symm]
  | cons c m ih =>
    simp only [Memory.write]
    split
    · simp [Memory.lookup, h.symm]
    · split
      · rename_i hak
        subst hak
        simp [Memory.lookup, Ne.symm h]
      · simp [Memory.lookup, ih]

@[simp] theorem read_write_self (m : Memory) (a : Nat) (v : Byte) : Memory.read (Memory.write m a v) a = v := by
  simp [Memory.read, lookup_write_self]

theorem read_write_of_ne {a b : Nat} (h : b ≠ a) (m : Memory) (v : Byte) :
    Memory.read (Memory.write m a v) b = Memory.read m b := by
  simp [Memory.read, lookup_write_of_ne h]

/-- Writing a listed address of a rising list leaves the list of addresses as it is. -/
theorem keys_write (m : Memory) (a : Nat) (v : Byte) (hs : (m.map Prod.fst).Pairwise (· < ·))
    (ha : a ∈ m.map Prod.fst) : (Memory.write m a v).map Prod.fst = m.map Prod.fst := by
  induction m with
  | nil => simp at ha
  | cons c m ih =>
    obtain ⟨hc, hm⟩ := List.pairwise_cons.1 hs
    simp only [Memory.write]
    rcases List.mem_cons.1 ha with rfl | ha
    · simp
    · have hlt := hc a ha
      rw [if_neg (by omega), if_neg (by omega)]
      simp only [List.map_cons, ih hm ha]

/-- A write keeps the canonical form. -/
theorem wf_write {m : Memory} (h : Memory.wf m) {a : Nat} (ha : a ≤ 255) (v : Byte) :
    Memory.wf (Memory.write m a v) := by
  have hk := keys_write m a v (by rw [h]; exact List.pairwise_lt_range)
    (by rw [h]; exact List.mem_range.2 (by simp only [Config.memSize]; omega))
  exact hk.trans h

/-- Placing bytes keeps the canonical form. -/
theorem wf_placeBytes {m : Memory} (h : Memory.wf m) (a : Nat) (bs : List Byte) :
    Memory.wf (placeBytes m a bs) := by
  induction bs generalizing m a with
  | nil => exact h
  | cons b bs ih =>
    simp only [placeBytes]
    split
    · exact ih h _
    · exact ih (wf_write h (by omega) b) _

/-- The launch memory is canonical. -/
theorem wf_launchMemory : Memory.wf launchMemory := by
  simp [Memory.wf, launchMemory, Function.comp_def]

/-- The launch memory reads as `MEM_INIT` everywhere. -/
theorem read_launchMemory (a : Nat) : Memory.read launchMemory a = Config.memInit a := by
  have key : ∀ l : List Nat,
      (Memory.lookup (l.map fun k => (k, Config.memInit k)) a).getD (Config.memInit a) = Config.memInit a := by
    intro l
    induction l with
    | nil => rfl
    | cons k l ih =>
      simp only [List.map_cons, Memory.lookup]
      split
      · subst_vars; rfl
      · exact ih
  exact key _

/-! ### MemRead and MemWrite -/

theorem memRead_of_le {s : State} {a : Nat} (h : a ≤ 255) : s.memRead a = .ok (Memory.read s.mem a) := by
  simp [State.memRead, Nat.not_lt.2 h]

theorem memRead_of_gt {s : State} {a : Nat} (h : 255 < a) : s.memRead a = .error .outOfRangeAddress := by
  simp [State.memRead, h]

/-- Everything a completed memory write does. -/
theorem memWrite_eq_ok {s t : State} {a v : Nat} :
    s.memWrite a v = .ok t ↔
      a ≤ 255 ∧ v ≤ 255 ∧ t = { s with mem := Memory.write s.mem a (BitVec.ofNat 8 v) } := by
  unfold State.memWrite
  split
  · simp; omega
  · split
    · simp; omega
    · exact ⟨fun h => ⟨by omega, by omega, (Except.ok.inj h).symm⟩, fun h => by rw [h.2.2]⟩

theorem memRead_memWrite {s t : State} {a v : Nat} (h : s.memWrite a v = .ok t) :
    t.memRead a = .ok (BitVec.ofNat 8 v) := by
  obtain ⟨ha, -, rfl⟩ := memWrite_eq_ok.1 h
  simp [memRead_of_le ha]

theorem memRead_memWrite_of_ne {s t : State} {a b v : Nat} (h : s.memWrite a v = .ok t) (hb : b ≠ a) :
    t.memRead b = s.memRead b := by
  obtain ⟨-, -, rfl⟩ := memWrite_eq_ok.1 h
  simp [State.memRead, read_write_of_ne hb]

/-- The stack pointer is a byte, so a pop's read never faults (R231). -/
theorem popRead_eq (s : State) : s.popRead = .ok (Memory.read s.mem s.sp.toNat) :=
  memRead_of_le (by have := s.sp.isLt; omega)

/-- The stack pointer is a byte, so a push faults only on a value above 255 (R231). -/
theorem pushWrite_eq (s : State) {v : Nat} (h : v ≤ 255) :
    s.pushWrite v = .ok { s with mem := Memory.write s.mem s.sp.toNat (BitVec.ofNat 8 v) } :=
  memWrite_eq_ok.2 ⟨by have := s.sp.isLt; omega, h, rfl⟩

end Sys2Proof.Machine
end

