-- ==== Sys2Proof/Laws/Operations.lean ====
section
/-! SUPPORT. What each shared operation can do, said once: completing an instruction, taking a fault, the
register-index check, the ALU, its write-back, fetching and the step. -/

namespace Sys2Proof.Machine

/-! ### Ending a cycle -/

theorem raise_eq (f : Fault) (s : State) : raise f s = .next (s.setStatus (.faulted f)) := rfl

@[simp] theorem complete_ok (s t : State) : complete s (.ok t) = .next t := rfl

@[simp] theorem complete_error (s : State) (f : Fault) : complete s (.error f) = raise f s := rfl

/-- Completing answers a next state always: the computed one, or the state before with the fault's status. -/
theorem complete_next_iff {s t : State} {m : Except Fault State} :
    complete s m = .next t ↔ m = .ok t ∨ ∃ f, m = .error f ∧ t = s.setStatus (.faulted f) := by
  cases m <;> simp [raise, eq_comm]

@[simp] theorem completeAdvance_ok (s t : State) (n : Nat) :
    completeAdvance s n (.ok t) = .next (t.setPc (s.pc + 1 + n)) := rfl

@[simp] theorem completeAdvance_error (s : State) (n : Nat) (f : Fault) :
    completeAdvance s n (.error f) = raise f s := rfl

/-- Completing with the default advance: the computed state with pc at `pc0 + 1 + n`, or the fault taken. -/
theorem completeAdvance_next_iff {s t : State} {n : Nat} {m : Except Fault State} :
    completeAdvance s n m = .next t ↔
      (∃ u, m = .ok u ∧ t = u.setPc (s.pc + 1 + n)) ∨ ∃ f, m = .error f ∧ t = s.setStatus (.faulted f) := by
  cases m <;> simp [raise, eq_comm]

/-! ### Computing on a copy -/

@[simp] theorem except_bind_ok {α β : Type} (a : α) (k : α → Except Fault β) : (Except.ok a >>= k) = k a := rfl

@[simp] theorem except_bind_error {α β : Type} (f : Fault) (k : α → Except Fault β) :
    ((Except.error f : Except Fault α) >>= k) = .error f := rfl

@[simp] theorem except_pure {α : Type} (a : α) : (pure a : Except Fault α) = .ok a := rfl

/-- A line followed by others completes exactly when both parts do. -/
theorem except_bind_eq_ok {α β : Type} {x : Except Fault α} {k : α → Except Fault β} {b : β} :
    (x >>= k) = .ok b ↔ ∃ a, x = .ok a ∧ k a = .ok b := by
  cases x <;> simp

/-- A line followed by others faults exactly when it faults or the others do. -/
theorem except_bind_eq_error {α β : Type} {x : Except Fault α} {k : α → Except Fault β} {f : Fault} :
    (x >>= k) = .error f ↔ x = .error f ∨ ∃ a, x = .ok a ∧ k a = .error f := by
  cases x <;> simp

/-! ### The register-index check -/

theorem regOperand_eq_ok {b : Byte} {i : RegIndex} : regOperand b = .ok i ↔ Names b i := by
  unfold regOperand Names
  split
  · simp [Fin.ext_iff]
  · have := i.isLt
    simp; omega

theorem regOperand_of_names {b : Byte} {i : RegIndex} (h : Names b i) : regOperand b = .ok i :=
  regOperand_eq_ok.2 h

theorem regOperand_eq_error {b : Byte} {f : Fault} :
    regOperand b = .error f ↔ f = .invalidRegisterIndex ∧ 7 < b.toNat := by
  unfold regOperand
  split
  · simp; omega
  · simp [eq_comm]; omega

theorem regOperand_of_gt {b : Byte} (h : 7 < b.toNat) : regOperand b = .error .invalidRegisterIndex :=
  regOperand_eq_error.2 ⟨rfl, h⟩

theorem legal_reg_iff {b : Byte} : OperandKind.legal .reg b = true ↔ ∃ i, Names b i := by
  simp only [OperandKind.legal, decide_eq_true_eq, Names]
  exact ⟨fun h => ⟨⟨b.toNat, by omega⟩, rfl⟩, fun ⟨i, hi⟩ => by have := i.isLt; omega⟩

theorem legal_reg_eq_false {b : Byte} : OperandKind.legal .reg b = false ↔ 7 < b.toNat := by
  simp [OperandKind.legal]

@[simp] theorem legal_imm (b : Byte) : OperandKind.legal .imm b = true := rfl

/-! ### The ALU -/

theorem aluApply_add (a b : Byte) : aluApply 0xA0 a b = .result (BitVec.ofNat 8 (a.toNat + b.toNat)) := rfl
theorem aluApply_mul (a b : Byte) : aluApply 0xA2 a b = .result (BitVec.ofNat 8 (a.toNat * b.toNat)) := rfl
theorem aluApply_cmp (a b : Byte) : aluApply 0xA7 a b = .flags (compareFlags a b) := rfl
theorem aluApply_and (a b : Byte) : aluApply 0xA8 a b = .result (a &&& b) := rfl
theorem aluApply_or (a b : Byte) : aluApply 0xAA a b = .result (a ||| b) := rfl
theorem aluApply_xor (a b : Byte) : aluApply 0xAB a b = .result (a ^^^ b) := rfl
theorem aluApply_not (a b : Byte) : aluApply 0x69 a b = .result (~~~ a) := rfl
theorem aluApply_shl (a b : Byte) : aluApply 0xAC a b = .result (a <<< b.toNat) := rfl
theorem aluApply_shr (a b : Byte) : aluApply 0xAD a b = .result (a >>> b.toNat) := rfl

theorem aluApply_mod (a b : Byte) : aluApply 0xA4 a b =
    if b = 0 then .fault .divisionByZero else .result (BitVec.ofNat 8 (a.toNat % b.toNat)) := rfl

/-- A two-register ALU instruction whose operands name registers and whose ALU output is a result completes with it. -/
theorem execAlu2_result {op ra rb v : Byte} {a b : RegIndex} {s : State} (ha : Names ra a) (hb : Names rb b)
    (h : aluApply op (s.readReg a) (s.readReg b) = .result v) :
    execAlu2 op ra rb s = .next ((s.writeReg a v.toNat).setPc (s.pc + 3)) := by
  simp [execAlu2, regOperand_of_names ha, regOperand_of_names hb, h, writeBack, Nat.add_assoc]

/-- Every way a two-register ALU instruction can end. -/
theorem execAlu2_cases {op ra rb : Byte} {s t : State} (h : execAlu2 op ra rb s = .next t) :
    (∃ f, t = s.setStatus (.faulted f) ∧ (f = .invalidRegisterIndex ∨
      ∃ a b, Names ra a ∧ Names rb b ∧ aluApply op (s.readReg a) (s.readReg b) = .fault f)) ∨
    ∃ a b, Names ra a ∧ Names rb b ∧
      ((∃ v, aluApply op (s.readReg a) (s.readReg b) = .result v ∧
          t = (s.writeReg a v.toNat).setPc (s.pc + 3)) ∨
        ∃ f, aluApply op (s.readReg a) (s.readReg b) = .flags f ∧ t = (s.setFlags f).setPc (s.pc + 3)) := by
  rcases completeAdvance_next_iff.1 h with ⟨u, hu, rfl⟩ | ⟨f, hf, rfl⟩
  · obtain ⟨a, ha, hu⟩ := except_bind_eq_ok.1 hu
    obtain ⟨b, hb, hu⟩ := except_bind_eq_ok.1 hu
    refine .inr ⟨a, b, regOperand_eq_ok.1 ha, regOperand_eq_ok.1 hb, ?_⟩
    cases hap : aluApply op (s.readReg a) (s.readReg b) <;> rw [hap] at hu <;> simp [writeBack] at hu
    · exact .inl ⟨_, rfl, by rw [← hu]⟩
    · exact .inr ⟨_, rfl, by rw [← hu]⟩
  · refine .inl ⟨f, rfl, ?_⟩
    rcases except_bind_eq_error.1 hf with he | ⟨a, ha, hf⟩
    · exact .inl (regOperand_eq_error.1 he).1
    rcases except_bind_eq_error.1 hf with he | ⟨b, hb, hf⟩
    · exact .inl (regOperand_eq_error.1 he).1
    refine .inr ⟨a, b, regOperand_eq_ok.1 ha, regOperand_eq_ok.1 hb, ?_⟩
    cases hap : aluApply op (s.readReg a) (s.readReg b) <;> rw [hap] at hf <;> simp [writeBack] at hf
    rw [hf]

/-! ### Flags -/

/-- CMP's result is exactly one of E, G, L. -/
theorem compareFlags_legal (a b : Byte) :
    compareFlags a b = 0b001 ∨ compareFlags a b = 0b010 ∨ compareFlags a b = 0b100 := by
  unfold compareFlags
  split
  · simp
  · split <;> simp

/-! ### Decoding and fetching -/

theorem decode_cons (op : Byte) (rest : List Byte) :
    decode (op :: rest) = match decodeOpcode op with
      | none => .error .unknownOpcode
      | some row => row.format.take rest := rfl

/-- A row that decodes an opcode stands in the table under that opcode. -/
theorem mem_of_decodeOpcode {op : Byte} {row : Row} (h : decodeOpcode op = some row) :
    row ∈ opcodeTable ∧ row.opcode = op :=
  ⟨List.mem_of_find?_eq_some h, by simpa using List.find?_some h⟩

/-- Operand fetch of one byte more. -/
theorem fetchBytes_succ_eq_ok {s : State} {a n : Nat} {bs : List Byte} :
    fetchBytes s a (n + 1) = .ok bs ↔
      ∃ b cs, s.memRead a = .ok b ∧ fetchBytes s (a + 1) n = .ok cs ∧ bs = b :: cs := by
  simp only [fetchBytes, except_bind_eq_ok, except_pure, Except.ok.injEq]
  exact ⟨fun ⟨b, hb, cs, hc, h⟩ => ⟨b, cs, hb, hc, h.symm⟩, fun ⟨b, cs, hb, hc, h⟩ => ⟨b, hb, cs, hc, h.symm⟩⟩

/-- An operand fetch either reads all its bytes or raises OutOfRangeAddress. -/
theorem fetchBytes_error {s : State} {f : Fault} {n a : Nat} (h : fetchBytes s a n = .error f) :
    f = .outOfRangeAddress := by
  induction n generalizing a with
  | zero => simp [fetchBytes] at h
  | succ n ih =>
    simp only [fetchBytes, except_bind_eq_error, except_pure] at h
    rcases h with h | ⟨b, hb, h | ⟨cs, -, h⟩⟩
    · unfold State.memRead at h
      split at h <;> simp at h
      exact h.symm
    · exact ih h
    · simp at h

/-- What an operand fetch that succeeds says of the addresses. -/
theorem fetchBytes_ok_bound {s : State} {n a : Nat} {bs : List Byte} (h : fetchBytes s a n = .ok bs) :
    bs.length = n ∧ (0 < n → a + n ≤ 256) := by
  induction n generalizing a bs with
  | zero => simp [fetchBytes] at h; simp [← h]
  | succ n ih =>
    obtain ⟨b, cs, hb, hc, rfl⟩ := fetchBytes_succ_eq_ok.1 h
    obtain ⟨hl, hb'⟩ := ih hc
    refine ⟨by simp [hl], fun _ => ?_⟩
    have ha : a ≤ 255 := by
      rcases Nat.lt_or_ge 255 a with hgt | hle
      · rw [memRead_of_gt hgt] at hb; simp at hb
      · exact hle
    rcases Nat.eq_zero_or_pos n with rfl | hpos
    · omega
    · have := hb' hpos; omega

/-- An operand fetch within the space succeeds. -/
theorem fetchBytes_of_le {s : State} {n a : Nat} (h : a + n ≤ 256) : ∃ bs, fetchBytes s a n = .ok bs := by
  induction n generalizing a with
  | zero => exact ⟨[], rfl⟩
  | succ n ih =>
    obtain ⟨bs, hb⟩ := ih (a := a + 1) (by omega)
    exact ⟨_, fetchBytes_succ_eq_ok.2 ⟨_, bs, memRead_of_le (by omega), hb, rfl⟩⟩

/-- A format takes exactly its operand bytes. -/
theorem format_take_append {format : Format} {bs : List Byte} (h : bs.length = format.kinds.length) :
    ∃ i, ∀ rest, format.take (bs ++ rest) = .ok (i, rest) := by
  cases format <;> simp [Format.kinds] at h
  · subst h; exact ⟨_, fun _ => rfl⟩
  · obtain ⟨b, rfl⟩ := List.length_eq_one_iff.1 h
    exact ⟨_, fun _ => rfl⟩
  all_goals
    obtain ⟨a, b, rfl⟩ := List.length_eq_two.1 h
    exact ⟨_, fun _ => rfl⟩

/-! ### The step -/

theorem step_running {s : State} (h : s.status = .running) :
    step s = match fetch s with | .ok i => exec i s | .error f => raise f s := by
  unfold step
  split
  · rfl
  · next hc => exact absurd (h.symm.trans hc) (by simp)
  · next hc => exact absurd (h.symm.trans hc) (by simp)

theorem step_of_fetch_ok {s : State} {i : Instr} (h : s.status = .running) (hf : fetch s = .ok i) :
    step s = exec i s := by
  rw [step_running h, hf]

theorem step_of_fetch_error {s : State} {f : Fault} (h : s.status = .running) (hf : fetch s = .error f) :
    step s = raise f s := by
  rw [step_running h, hf]

/-- A step outside Running changes nothing. -/
theorem step_stopped {s : State} (h : s.status ≠ .running) : step s = .next s := by
  unfold step
  split <;> simp_all

end Sys2Proof.Machine
end

