-- ==== Sys2Proof/Laws/Exec.lean ====
section
/-! SUPPORT. What an instruction can do, said once: the forms its completed effect can take, and that every next state
of exec has one of them. Whole-machine claims go by cases on this instead of unfolding the meanings. -/

namespace Sys2Proof.Machine

/-- The two-register ALU instructions that write a register: selector and operand bytes. -/
def alu2Form : Instr → Option (Byte × Byte × Byte)
  | .add ra rb => some (0xA0, ra, rb)
  | .mul ra rb => some (0xA2, ra, rb)
  | .and ra rb => some (0xA8, ra, rb)
  | .or ra rb => some (0xAA, ra, rb)
  | .xor ra rb => some (0xAB, ra, rb)
  | .shl ra rb => some (0xAC, ra, rb)
  | .shr ra rb => some (0xAD, ra, rb)
  | .mod ra rb => some (0xA4, ra, rb)
  | .ldi _ _ => none
  | .prn _ => none
  | .hlt => none
  | .cmp _ _ => none
  | .pop _ => none
  | .push _ => none
  | .call _ => none
  | .ret => none
  | .jmp _ => none
  | .jeq _ => none
  | .jne _ => none
  | .not _ => none

/-- The state after a push of `v` onto the stack (R230). -/
def State.pushed (s : State) (v : Byte) : State :=
  { s.pushDecrement with mem := Memory.write s.mem (s.sp - 1).toNat v }

@[simp] theorem pushed_fl (s : State) (v : Byte) : (s.pushed v).fl = s.fl := rfl
@[simp] theorem pushed_pc (s : State) (v : Byte) : (s.pushed v).pc = s.pc := rfl
@[simp] theorem pushed_status (s : State) (v : Byte) : (s.pushed v).status = s.status := rfl
@[simp] theorem pushed_out (s : State) (v : Byte) : (s.pushed v).out = s.out := rfl
@[simp] theorem pushed_mem (s : State) (v : Byte) : (s.pushed v).mem = Memory.write s.mem (s.sp - 1).toNat v := rfl
@[simp] theorem pushed_sp (s : State) (v : Byte) : (s.pushed v).sp = s.sp - 1 := pushDecrement_sp s

theorem readReg_pushed (s : State) (v : Byte) (i : RegIndex) :
    (s.pushed v).readReg i = if i = SP then s.sp - 1 else s.readReg i := readReg_pushDecrement s i

/-- The pushed cell reads as the value pushed. -/
theorem memRead_pushed (s : State) (v : Byte) : (s.pushed v).memRead (s.sp - 1).toNat = .ok v := by
  rw [memRead_of_le (by omega), pushed_mem, read_write_self]

/-- Every other cell reads as before the push. -/
theorem memRead_pushed_of_ne (s : State) (v : Byte) {a : Nat} (h : a ≠ (s.sp - 1).toNat) :
    (s.pushed v).memRead a = s.memRead a := by
  simp only [State.memRead, pushed_mem, read_write_of_ne h]

/-- The effect of one instruction, completed or faulted. -/
inductive Effect (s : State) : Instr → State → Prop where
  | ldi {r imm : Byte} {i : RegIndex} (h : Names r i) :
      Effect s (.ldi r imm) ((s.writeReg i imm.toNat).setPc (s.pc + 3))
  | prn {r : Byte} {i : RegIndex} (h : Names r i) : Effect s (.prn r) ((s.emit (s.readReg i)).setPc (s.pc + 2))
  | hlt : Effect s .hlt ((s.setStatus .halted).setPc (s.pc + 1))
  | alu {instr : Instr} {op ra rb v : Byte} {a b : RegIndex} (hi : alu2Form instr = some (op, ra, rb))
      (ha : Names ra a) (hb : Names rb b) (hv : aluApply op (s.readReg a) (s.readReg b) = .result v) :
      Effect s instr ((s.writeReg a v.toNat).setPc (s.pc + 3))
  | cmp {ra rb : Byte} {a b : RegIndex} (ha : Names ra a) (hb : Names rb b) :
      Effect s (.cmp ra rb) ((s.setFlags (compareFlags (s.readReg a) (s.readReg b))).setPc (s.pc + 3))
  | not {r : Byte} {i : RegIndex} (h : Names r i) :
      Effect s (.not r) ((s.writeReg i (~~~ s.readReg i).toNat).setPc (s.pc + 2))
  | push {r : Byte} {i : RegIndex} (h : Names r i) :
      Effect s (.push r) ((s.pushed (s.pushDecrement.readReg i)).setPc (s.pc + 2))
  | pop {r : Byte} {i : RegIndex} (h : Names r i) :
      Effect s (.pop r) ((s.writeReg i (Memory.read s.mem s.sp.toNat).toNat).popIncrement.setPc (s.pc + 2))
  | call {r : Byte} {i : RegIndex} (h : Names r i) (hpc : s.pc + 2 ≤ 255) :
      Effect s (.call r) ((s.pushed (BitVec.ofNat 8 (s.pc + 2))).setPc (s.pushDecrement.readReg i).toNat)
  | ret : Effect s .ret ((s.setPc (Memory.read s.mem s.sp.toNat).toNat).popIncrement)
  | jmp {r : Byte} {i : RegIndex} (h : Names r i) : Effect s (.jmp r) (s.setPc (s.readReg i).toNat)
  | jeq {r : Byte} {i : RegIndex} (h : Names r i) :
      Effect s (.jeq r) (s.setPc (if flagE s.fl then (s.readReg i).toNat else s.pc + 2))
  | jne {r : Byte} {i : RegIndex} (h : Names r i) :
      Effect s (.jne r) (s.setPc (if !flagE s.fl then (s.readReg i).toNat else s.pc + 2))
  | badIndex {instr : Instr} (h : instr.wellFormed = false) :
      Effect s instr (s.setStatus (.faulted .invalidRegisterIndex))
  | divisionByZero {ra rb : Byte} {a b : RegIndex} (ha : Names ra a) (hb : Names rb b) (h : s.readReg b = 0) :
      Effect s (.mod ra rb) (s.setStatus (.faulted .divisionByZero))
  | callAtTop {r : Byte} {i : RegIndex} (h : Names r i) (hpc : 255 < s.pc + 2) :
      Effect s (.call r) (s.setStatus (.faulted .outOfRangeAddress))

variable {s t : State}

/-- A run of one step more. -/
theorem run_succ {k : Nat} (h : step s = .next t) : core.run (k + 1) s = core.run k t := by
  have h' : core.step s = .next t := h
  simp only [Host.Core.run, h']

/-- A one-register form: with a legal operand it is the body, else the index fault. -/
theorem regOperand_cases (r : Byte) :
    (∃ i, Names r i ∧ regOperand r = .ok i) ∨ (7 < r.toNat ∧ regOperand r = .error .invalidRegisterIndex) := by
  rcases Nat.lt_or_ge 7 r.toNat with h | h
  · exact .inr ⟨h, regOperand_of_gt h⟩
  · exact .inl ⟨⟨r.toNat, by omega⟩, rfl, regOperand_of_names rfl⟩

theorem pushWrite_pushDecrement (s : State) {v : Nat} (h : v ≤ 255) :
    s.pushDecrement.pushWrite v = .ok (s.pushed (BitVec.ofNat 8 v)) := by
  rw [pushWrite_eq _ h]
  simp [State.pushed]

/-- The effect of a two-register ALU form that writes a register, MOD's zero divisor among its cases. -/
theorem execAlu2_effect {instr : Instr} {op ra rb : Byte} (hi : alu2Form instr = some (op, ra, rb))
    (hw : 7 < ra.toNat ∨ 7 < rb.toNat → instr.wellFormed = false)
    (hres : ∀ x y : Byte, (∃ v, aluApply op x y = .result v) ∨
      (aluApply op x y = .fault .divisionByZero ∧ y = 0 ∧ instr = .mod ra rb))
    (h : execAlu2 op ra rb s = .next t) : Effect s instr t := by
  rcases regOperand_cases ra with ⟨a, ha, hra⟩ | ⟨hgt, hra⟩
  · rcases regOperand_cases rb with ⟨b, hb, hrb⟩ | ⟨hgt, hrb⟩
    · rcases hres (s.readReg a) (s.readReg b) with ⟨v, hv⟩ | ⟨hf, hz, rfl⟩
      · rw [execAlu2_result ha hb hv] at h
        cases h
        exact .alu hi ha hb hv
      · simp only [execAlu2, hra, hrb, except_bind_ok, hf, writeBack, completeAdvance_error, raise] at h
        cases h
        exact .divisionByZero ha hb hz
    · simp only [execAlu2, hra, hrb, except_bind_ok, except_bind_error, completeAdvance_error, raise] at h
      cases h
      exact .badIndex (hw (.inr hgt))
  · simp only [execAlu2, hra, except_bind_error, completeAdvance_error, raise] at h
    cases h
    exact .badIndex (hw (.inl hgt))

theorem wellFormed_two_eq_false {instr : Instr} {ra rb : Byte} (h : instr.operands = [(.reg, ra), (.reg, rb)]) :
    instr.wellFormed = false ↔ 7 < ra.toNat ∨ 7 < rb.toNat := by
  simp [Instr.wellFormed, h, OperandKind.legal]
  omega

theorem wellFormed_one_eq_false {instr : Instr} {r : Byte} (h : instr.operands = [(.reg, r)]) :
    instr.wellFormed = false ↔ 7 < r.toNat := by
  simp [Instr.wellFormed, h, OperandKind.legal]

/-- Every next state of exec is one of the listed effects. -/
theorem exec_effect {i : Instr} (h : exec i s = .next t) : Effect s i t := by
  cases i with
  | ldi r imm =>
    change execLdi r imm s = _ at h
    rcases regOperand_cases r with ⟨i, hi, hr⟩ | ⟨hgt, hr⟩ <;>
      simp only [execLdi, hr, except_bind_ok, except_bind_error, except_pure, completeAdvance_ok,
        completeAdvance_error, raise] at h <;> cases h
    · exact .ldi hi
    · exact .badIndex (by simp [Instr.wellFormed, Instr.operands, OperandKind.legal]; omega)
  | prn r =>
    change execPrn r s = _ at h
    rcases regOperand_cases r with ⟨i, hi, hr⟩ | ⟨hgt, hr⟩ <;>
      simp only [execPrn, hr, except_bind_ok, except_bind_error, except_pure, completeAdvance_ok,
        completeAdvance_error, raise] at h <;> cases h
    · exact .prn hi
    · exact .badIndex ((wellFormed_one_eq_false rfl).2 hgt)
  | hlt => change execHlt s = _ at h; cases h; exact .hlt
  | mul ra rb => exact execAlu2_effect rfl (wellFormed_two_eq_false rfl).2 (fun _ _ => .inl ⟨_, aluApply_mul ..⟩) h
  | add ra rb => exact execAlu2_effect rfl (wellFormed_two_eq_false rfl).2 (fun _ _ => .inl ⟨_, aluApply_add ..⟩) h
  | and ra rb => exact execAlu2_effect rfl (wellFormed_two_eq_false rfl).2 (fun _ _ => .inl ⟨_, aluApply_and ..⟩) h
  | or ra rb => exact execAlu2_effect rfl (wellFormed_two_eq_false rfl).2 (fun _ _ => .inl ⟨_, aluApply_or ..⟩) h
  | xor ra rb => exact execAlu2_effect rfl (wellFormed_two_eq_false rfl).2 (fun _ _ => .inl ⟨_, aluApply_xor ..⟩) h
  | shl ra rb => exact execAlu2_effect rfl (wellFormed_two_eq_false rfl).2 (fun _ _ => .inl ⟨_, aluApply_shl ..⟩) h
  | shr ra rb => exact execAlu2_effect rfl (wellFormed_two_eq_false rfl).2 (fun _ _ => .inl ⟨_, aluApply_shr ..⟩) h
  | mod ra rb =>
    refine execAlu2_effect rfl (wellFormed_two_eq_false rfl).2 (fun x y => ?_) h
    rw [aluApply_mod]
    split
    · exact .inr ⟨rfl, ‹_›, rfl⟩
    · exact .inl ⟨_, rfl⟩
  | cmp ra rb =>
    change execAlu2 0xA7 ra rb s = _ at h
    rcases regOperand_cases ra with ⟨a, ha, hra⟩ | ⟨hgt, hra⟩
    · rcases regOperand_cases rb with ⟨b, hb, hrb⟩ | ⟨hgt, hrb⟩ <;>
        simp only [execAlu2, hra, hrb, except_bind_ok, except_bind_error, aluApply_cmp, writeBack,
          completeAdvance_ok, completeAdvance_error, raise] at h <;> cases h
      · exact .cmp ha hb
      · exact .badIndex ((wellFormed_two_eq_false rfl).2 (.inr hgt))
    · simp only [execAlu2, hra, except_bind_error, completeAdvance_error, raise] at h
      cases h
      exact .badIndex ((wellFormed_two_eq_false rfl).2 (.inl hgt))
  | not r =>
    change execAlu1 0x69 r s = _ at h
    rcases regOperand_cases r with ⟨i, hi, hr⟩ | ⟨hgt, hr⟩ <;>
      simp only [execAlu1, hr, except_bind_ok, except_bind_error, aluApply_not, writeBack, completeAdvance_ok,
        completeAdvance_error, raise] at h <;> cases h
    · exact .not hi
    · exact .badIndex ((wellFormed_one_eq_false rfl).2 hgt)
  | push r =>
    change execPush r s = _ at h
    rcases regOperand_cases r with ⟨i, hi, hr⟩ | ⟨hgt, hr⟩
    · simp only [execPush, hr, except_bind_ok,
        pushWrite_pushDecrement s (v := (s.pushDecrement.readReg i).toNat) (by omega), ofNat_toNat_byte,
        completeAdvance_ok] at h
      cases h
      exact .push hi
    · simp only [execPush, hr, except_bind_error, completeAdvance_error, raise] at h
      cases h
      exact .badIndex ((wellFormed_one_eq_false rfl).2 hgt)
  | pop r =>
    change execPop r s = _ at h
    rcases regOperand_cases r with ⟨i, hi, hr⟩ | ⟨hgt, hr⟩ <;>
      simp only [execPop, hr, popRead_eq, except_bind_ok, except_bind_error, except_pure, completeAdvance_ok,
        completeAdvance_error, raise] at h <;> cases h
    · exact .pop hi
    · exact .badIndex ((wellFormed_one_eq_false rfl).2 hgt)
  | call r =>
    change execCall r s = _ at h
    rcases regOperand_cases r with ⟨i, hi, hr⟩ | ⟨hgt, hr⟩
    · rcases Nat.lt_or_ge 255 (s.pc + 2) with hpc | hpc
      · simp only [execCall, hr, except_bind_ok, if_pos hpc, complete_error, raise] at h
        cases h
        exact .callAtTop hi hpc
      · simp only [execCall, hr, except_bind_ok, if_neg (Nat.not_lt.2 hpc), pushWrite_pushDecrement s hpc,
          except_pure, complete_ok] at h
        cases h
        exact .call hi hpc
    · simp only [execCall, hr, except_bind_error, complete_error, raise] at h
      cases h
      exact .badIndex ((wellFormed_one_eq_false rfl).2 hgt)
  | ret =>
    change execRet s = _ at h
    simp only [execRet, popRead_eq, except_bind_ok, except_pure, complete_ok] at h
    cases h
    exact .ret
  | jmp r =>
    change execJmp r s = _ at h
    rcases regOperand_cases r with ⟨i, hi, hr⟩ | ⟨hgt, hr⟩ <;>
      simp only [execJmp, hr, except_bind_ok, except_bind_error, except_pure, complete_ok, complete_error, raise] at h <;>
      cases h
    · exact .jmp hi
    · exact .badIndex ((wellFormed_one_eq_false rfl).2 hgt)
  | jeq r =>
    change jumpIf (flagE s.fl) r s = _ at h
    rcases regOperand_cases r with ⟨i, hi, hr⟩ | ⟨hgt, hr⟩ <;>
      simp only [jumpIf, hr, except_bind_ok, except_bind_error, except_pure, complete_ok, complete_error, raise] at h <;>
      cases h
    · exact .jeq hi
    · exact .badIndex ((wellFormed_one_eq_false rfl).2 hgt)
  | jne r =>
    change jumpIf (!flagE s.fl) r s = _ at h
    rcases regOperand_cases r with ⟨i, hi, hr⟩ | ⟨hgt, hr⟩ <;>
      simp only [jumpIf, hr, except_bind_ok, except_bind_error, except_pure, complete_ok, complete_error, raise] at h <;>
      cases h
    · exact .jne hi
    · exact .badIndex ((wellFormed_one_eq_false rfl).2 hgt)

/-- Every way a step can end: the machine was stopped, or its fetch faulted, or it ran one instruction. -/
theorem step_cases (h : step s = .next t) :
    (s.status ≠ .running ∧ t = s) ∨
    (s.status = .running ∧ ∃ f, fetch s = .error f ∧ t = s.setStatus (.faulted f)) ∨
    (s.status = .running ∧ ∃ i, fetch s = .ok i ∧ Effect s i t) := by
  by_cases hr : s.status = .running
  · cases hf : fetch s with
    | ok i => exact .inr (.inr ⟨hr, i, rfl, exec_effect (by rw [← step_of_fetch_ok hr hf, h])⟩)
    | error f =>
      rw [step_of_fetch_error hr hf, raise] at h
      cases h
      exact .inr (.inl ⟨hr, f, rfl, rfl⟩)
  · rw [step_stopped hr] at h
    cases h
    exact .inl ⟨hr, rfl⟩

end Sys2Proof.Machine
end

