-- ==== Sys2Proof/Laws/PerInstr.lean ====
section
/-! SUPPORT. Statements about every instruction as syntax, one lemma for each constructor. -/

namespace Sys2Proof.Laws.EncodedLength

/-- An instruction's encoding is its opcode byte followed by its operand bytes, 1 to 3 bytes in all, and its opcode's
row has exactly its operand kinds (spec/30_encoding.md R110, R111, R117). -/
def Statement (i : Instr) : Prop :=
  (encode i).length = i.length ∧ i.length ≤ 3 ∧
    (decodeOpcode i.opcode).map (fun row => row.format.kinds) = some (i.operands.map Prod.fst)

theorem ldi (r imm : Byte) : Statement (.ldi r imm) := ⟨rfl, by simp [Instr.length, Instr.operands], rfl⟩
theorem prn (r : Byte) : Statement (.prn r) := ⟨rfl, by simp [Instr.length, Instr.operands], rfl⟩
theorem hlt : Statement .hlt := ⟨rfl, by simp [Instr.length, Instr.operands], rfl⟩
theorem mul (ra rb : Byte) : Statement (.mul ra rb) := ⟨rfl, by simp [Instr.length, Instr.operands], rfl⟩
theorem add (ra rb : Byte) : Statement (.add ra rb) := ⟨rfl, by simp [Instr.length, Instr.operands], rfl⟩
theorem cmp (ra rb : Byte) : Statement (.cmp ra rb) := ⟨rfl, by simp [Instr.length, Instr.operands], rfl⟩
theorem pop (r : Byte) : Statement (.pop r) := ⟨rfl, by simp [Instr.length, Instr.operands], rfl⟩
theorem push (r : Byte) : Statement (.push r) := ⟨rfl, by simp [Instr.length, Instr.operands], rfl⟩
theorem call (r : Byte) : Statement (.call r) := ⟨rfl, by simp [Instr.length, Instr.operands], rfl⟩
theorem ret : Statement .ret := ⟨rfl, by simp [Instr.length, Instr.operands], rfl⟩
theorem jmp (r : Byte) : Statement (.jmp r) := ⟨rfl, by simp [Instr.length, Instr.operands], rfl⟩
theorem jeq (r : Byte) : Statement (.jeq r) := ⟨rfl, by simp [Instr.length, Instr.operands], rfl⟩
theorem jne (r : Byte) : Statement (.jne r) := ⟨rfl, by simp [Instr.length, Instr.operands], rfl⟩
theorem and (ra rb : Byte) : Statement (.and ra rb) := ⟨rfl, by simp [Instr.length, Instr.operands], rfl⟩
theorem or (ra rb : Byte) : Statement (.or ra rb) := ⟨rfl, by simp [Instr.length, Instr.operands], rfl⟩
theorem xor (ra rb : Byte) : Statement (.xor ra rb) := ⟨rfl, by simp [Instr.length, Instr.operands], rfl⟩
theorem not (r : Byte) : Statement (.not r) := ⟨rfl, by simp [Instr.length, Instr.operands], rfl⟩
theorem shl (ra rb : Byte) : Statement (.shl ra rb) := ⟨rfl, by simp [Instr.length, Instr.operands], rfl⟩
theorem shr (ra rb : Byte) : Statement (.shr ra rb) := ⟨rfl, by simp [Instr.length, Instr.operands], rfl⟩
theorem mod (ra rb : Byte) : Statement (.mod ra rb) := ⟨rfl, by simp [Instr.length, Instr.operands], rfl⟩

end Sys2Proof.Laws.EncodedLength
end

