-- ==== Sys2Proof/Tests/Slice0.lean ====
section
/-! SUPPORT. The model's own tests. Expected results come from spec/: words from the opcode table's encodings
(spec/30_encoding.md R117, spec/opcode_table.json), instruction results from spec/95_test_vectors.md (each theorem names
its vector). After them, for every obligation with hypotheses, a concrete state and operands that meet them. -/

namespace Sys2Proof.Tests

open Sys2Proof.Machine

/-! ### WellFormed: the one check, for each place a register index stands -/

theorem smoke_first_register_index : Instr.wellFormed (.ldi 8 1) = false := by decide
theorem smoke_second_register_index : Instr.wellFormed (.add 0 9) = false := by decide
theorem smoke_only_register_index : Instr.wellFormed (.jeq 255) = false := by decide
theorem smoke_legal : Instr.wellFormed (.ldi 7 255) = true := by decide

/-! ### Decoding: words written out bit by bit from the encoding column -/

theorem test_decode_ldi : decodeTableWord 24 0b110010000000000110000010 = some (.ldi 1 200) := by decide
theorem test_decode_prn : decodeTableWord 16 0b0000001001000111 = some (.prn 2) := by decide
theorem test_decode_hlt : decodeTableWord 8 0b00000001 = some .hlt := by decide
theorem test_decode_mul : decodeTableWord 24 0b000000110000010010100010 = some (.mul 4 3) := by decide
theorem test_decode_add : decodeTableWord 24 0b000001100000010110100000 = some (.add 5 6) := by decide
theorem test_decode_cmp : decodeTableWord 24 0b000000010000011010100111 = some (.cmp 6 1) := by decide
theorem test_decode_pop : decodeTableWord 16 0b0000011101000110 = some (.pop 7) := by decide
theorem test_decode_push : decodeTableWord 16 0b0000000101000101 = some (.push 1) := by decide
theorem test_decode_call : decodeTableWord 16 0b0000001001010000 = some (.call 2) := by decide
theorem test_decode_ret : decodeTableWord 8 0b00010001 = some .ret := by decide
theorem test_decode_jmp : decodeTableWord 16 0b0000010001010100 = some (.jmp 4) := by decide
theorem test_decode_jeq : decodeTableWord 16 0b0000010101010101 = some (.jeq 5) := by decide
theorem test_decode_jne : decodeTableWord 16 0b0000011001010110 = some (.jne 6) := by decide
theorem test_decode_and : decodeTableWord 24 0b000000010000011110101000 = some (.and 7 1) := by decide
theorem test_decode_or : decodeTableWord 24 0b000001000000000110101010 = some (.or 1 4) := by decide
theorem test_decode_xor : decodeTableWord 24 0b000001110000001010101011 = some (.xor 2 7) := by decide
theorem test_decode_not : decodeTableWord 16 0b0000001101101001 = some (.not 3) := by decide
theorem test_decode_shl : decodeTableWord 24 0b000001010000010010101100 = some (.shl 4 5) := by decide
theorem test_decode_shr : decodeTableWord 24 0b000000000000010110101101 = some (.shr 5 0) := by decide
theorem test_decode_mod : decodeTableWord 24 0b000000110000011010100100 = some (.mod 6 3) := by decide

theorem test_decode_illegal_zero : decodeTableWord 8 0x00 = none := by decide
theorem test_decode_illegal_sub : decodeTableWord 24 0x0100A1 = none := by decide
theorem test_decode_rest : decode [0x47, 0x00, 0x01] = .ok (.prn 0, [0x01]) := by rfl
theorem test_decode_truncated : decode [0xA0, 0x00] = .error .truncated := by rfl
theorem test_encode : encode (.ldi 0 8) = [0x82, 0x00, 0x08] := by decide
theorem test_text : Instr.text (.ldi 0 8) = "LDI R0,8" := by decide

/-! ### One step -/

/-- A running state with nothing emitted. -/
def at_ (pc : Nat) (x : Vector Byte 8) (fl : Flags) (mem : Memory) : State := ⟨mem, x, fl, pc, .running, []⟩

/-- Registers R0, R1 and R2 as given, R3 to R6 zero, and SP. -/
def regs (r0 r1 r2 sp : Byte) : Vector Byte 8 := #v[r0, r1, r2, 0, 0, 0, 0, sp]

/-- Two bytes of code at address 0x10. -/
def code2 (a b : Byte) : Memory := [(0x10, a), (0x11, b)]

/-- Three bytes of code at address 0x10. -/
def code3 (a b c : Byte) : Memory := [(0x10, a), (0x11, b), (0x12, c)]

/-- What one step leaves, as far as a test looks. -/
def after {α : Type} (s : State) (look : State → α) : Option α :=
  match step s with
  | .next t => some (look t)
  | .fault _ => none
  | .refused _ => none

-- A3, A4
theorem test_add_wraps_keeps_flags :
    after (at_ 0x10 (regs 255 1 0 0xF4) 0b010 (code3 0xA0 0 1)) (fun t => (t.x, t.fl, t.pc)) =
      some (regs 0 1 0 0xF4, 0b010, 0x13) := by decide
theorem test_add_same_register :
    after (at_ 0x10 (regs 128 0 0 0xF4) 0 (code3 0xA0 0 0)) (fun t => t.x) = some (regs 0 0 0 0xF4) := by decide
-- A7
theorem test_mul_low_byte :
    after (at_ 0x10 (regs 255 255 0 0xF4) 0 (code3 0xA2 0 1)) (fun t => t.x) = some (regs 1 255 0 0xF4) := by decide
-- A14, A15
theorem test_cmp_unsigned_less :
    after (at_ 0x10 (regs 0 255 0 0xF4) 0 (code3 0xA7 0 1)) (fun t => (t.fl, t.x)) =
      some (0b100, regs 0 255 0 0xF4) := by decide
theorem test_cmp_clears_equal :
    after (at_ 0x10 (regs 255 0 0 0xF4) 0b001 (code3 0xA7 0 1)) (fun t => t.fl) = some 0b010 := by decide
-- A17, A18
theorem test_and : after (at_ 0x10 (regs 0x5A 0 0xAA 0xF4) 0 (code3 0xA8 2 0)) (fun t => t.x) =
    some (regs 0x5A 0 0x0A 0xF4) := by decide
-- A19 (R3 in the vector, R1 here)
theorem test_or : after (at_ 0x10 (regs 0 0x81 0x0A 0xF4) 0 (code3 0xAA 2 1)) (fun t => t.x) =
    some (regs 0 0x81 0x8B 0xF4) := by decide
-- A21
theorem test_xor : after (at_ 0x10 (regs 0xF0 0 0xAA 0xF4) 0 (code3 0xAB 0 2)) (fun t => t.x) =
    some (regs 0x5A 0 0xAA 0xF4) := by decide
-- A26
theorem test_not_no_indirection : after (at_ 0x10 (regs 9 2 3 0xF4) 0 (code2 0x69 1)) (fun t => (t.x, t.pc)) =
    some (regs 9 0xFD 3 0xF4, 0x12) := by decide
-- A31, A32
theorem test_shl_whole_amount : after (at_ 0x10 (regs 1 255 0 0xF4) 0 (code3 0xAC 0 1)) (fun t => t.x) =
    some (regs 0 255 0 0xF4) := by decide
theorem test_shl_by_itself : after (at_ 0x10 (regs 3 0 0 0xF4) 0 (code3 0xAC 0 0)) (fun t => t.x) =
    some (regs 24 0 0 0xF4) := by decide
-- A33, A34
theorem test_shr_logical : after (at_ 0x10 (regs 0x80 7 0 0xF4) 0 (code3 0xAD 0 1)) (fun t => t.x) =
    some (regs 1 7 0 0xF4) := by decide
theorem test_shr_by_eight : after (at_ 0x10 (regs 0x80 8 0 0xF4) 0 (code3 0xAD 0 1)) (fun t => t.x) =
    some (regs 0 8 0 0xF4) := by decide
-- A41, A42
theorem test_mod : after (at_ 0x10 (regs 255 16 0 0xF4) 0 (code3 0xA4 0 1)) (fun t => t.x) =
    some (regs 15 16 0 0xF4) := by decide
theorem test_mod_by_zero :
    after (at_ 0x10 (regs 5 0 0 0xF4) 0 (code3 0xA4 0 1)) (fun t => (t.status, t.pc, t.x)) =
      some (.faulted .divisionByZero, 0x10, regs 5 0 0 0xF4) := by decide
-- L2, V11
theorem test_ldi_sp : after (at_ 0x10 (regs 0 0 0 0xF4) 0 (code3 0x82 7 0)) (fun t => t.x) =
    some (regs 0 0 0 0) := by decide
theorem test_ldi_at_top :
    after (at_ 253 (regs 0 0 0 0xF4) 0 [(253, 0x82), (254, 0), (255, 7)]) (fun t => (t.x, t.pc, t.status)) =
      some (regs 7 0 0 0xF4, 256, .running) := by decide
-- L6, V7
theorem test_prn_appends :
    after { at_ 0x10 (regs 255 0 0 0xF4) 0 (code2 0x47 0) with out := [1] } (fun t => (t.out, t.pc)) =
      some ([1, 255], 0x12) := by decide
theorem test_prn_operand_out_of_range :
    after (at_ 255 (regs 0 0 0 0xF4) 0 [(255, 0x47)]) (fun t => (t.status, t.pc, t.out)) =
      some (.faulted .outOfRangeAddress, 255, []) := by decide
-- V10, L7
theorem test_hlt_at_top : after (at_ 255 (regs 0 0 0 0xF4) 0 [(255, 0x01)]) (fun t => (t.status, t.pc)) =
    some (.halted, 256) := by decide
-- S2, S3
theorem test_push_wraps :
    after (at_ 0x10 (regs 0x11 0 0 0) 0 (code2 0x45 0)) (fun t => (t.sp, t.memRead 0xFF |>.toOption, t.pc)) =
      some (0xFF, some 0x11, 0x12) := by decide
theorem test_push_sp :
    after (at_ 0x10 (regs 0 0 0 0xF4) 0 (code2 0x45 7)) (fun t => (t.sp, t.memRead 0xF3 |>.toOption)) =
      some (0xF3, some 0xF3) := by decide
-- S5, S6
theorem test_pop_wraps :
    after (at_ 0x10 (regs 0 0 0 0xFF) 0 (code2 0x46 1 ++ [(0xFF, 0x11)])) (fun t => (t.x, t.memRead 0xFF |>.toOption)) =
      some (regs 0 0x11 0 0, some 0x11) := by decide
theorem test_pop_sp :
    after (at_ 0x10 (regs 0 0 0 0xF3) 0 (code2 0x46 7 ++ [(0xF3, 0x10)])) (fun t => t.sp) = some 0x11 := by decide
-- T1, T3
theorem test_call : after (at_ 6 (regs 0 11 0 0xF4) 0 [(6, 0x50), (7, 1)])
    (fun t => (t.sp, t.memRead 0xF3 |>.toOption, t.pc)) = some (0xF3, some 8, 11) := by decide
theorem test_call_at_254 : after (at_ 254 (regs 0 0 0 0xF4) 0 [(254, 0x50), (255, 1)])
    (fun t => (t.status, t.pc, t.sp, t.mem)) =
      some (.faulted .outOfRangeAddress, 254, 0xF4, [(254, 0x50), (255, 1)]) := by decide
-- T5, T6
theorem test_ret : after (at_ 0x30 (regs 0 0 0 0xF3) 0 [(0x30, 0x11), (0xF3, 8)]) (fun t => (t.pc, t.sp)) =
    some (8, 0xF4) := by decide
theorem test_ret_wraps : after (at_ 0x30 (regs 0 0 0 0xFF) 0 [(0x30, 0x11), (0xFF, 0x40)]) (fun t => (t.pc, t.sp)) =
    some (0x40, 0) := by decide
-- T7
theorem test_jmp : after (at_ 0 (regs 0 0 0x20 0xF4) 0 [(0, 0x54), (1, 2)]) (fun t => (t.pc, t.status)) =
    some (0x20, .running) := by decide
-- T9, T10 (R3 in the vectors, R2 here)
theorem test_jeq_taken : after (at_ 0x10 (regs 0 0 0x30 0xF4) 0b001 (code2 0x55 2)) (fun t => t.pc) = some 0x30 := by
  decide
theorem test_jeq_not_taken : after (at_ 0x10 (regs 0 0 0x30 0xF4) 0b010 (code2 0x55 2)) (fun t => t.pc) = some 0x12 := by
  decide
-- T13, T14
theorem test_jne_taken : after (at_ 0x10 (regs 0 0 0x0C 0xF4) 0b100 (code2 0x56 2)) (fun t => t.pc) = some 0x0C := by
  decide
theorem test_jne_not_taken : after (at_ 0x10 (regs 0 0 0x0C 0xF4) 0b001 (code2 0x56 2)) (fun t => t.pc) = some 0x12 := by
  decide
-- V2, V6, V12, V14
theorem test_unknown_opcode : after (at_ 0 (regs 0 0 0 0xF4) 0 [(0, 0xFF)]) (fun t => (t.status, t.pc)) =
    some (.faulted .unknownOpcode, 0) := by decide
theorem test_index_checked_when_not_taken :
    after (at_ 0x10 (regs 0 0 0 0xF4) 0b010 (code2 0x55 0x0C)) (fun t => (t.status, t.pc)) =
      some (.faulted .invalidRegisterIndex, 0x10) := by decide
theorem test_operand_fetch_before_index_check :
    after (at_ 254 (regs 0 0 0 0xF4) 0 [(254, 0xA4), (255, 9)]) (fun t => t.status) =
      some (.faulted .outOfRangeAddress) := by decide
theorem test_faulted_is_terminal :
    after { at_ 0 (regs 0 0 0 0xF4) 0 [(0, 0x01)] with status := .faulted .divisionByZero } (fun t => (t.status, t.pc)) =
      some (.faulted .divisionByZero, 0) := by decide
-- W7, its first instruction, placed and run at reset
theorem test_first_instruction_after_reset :
    after (State.reset.withFetchWord 24 0x080082) (fun t => (t.readReg 0, t.sp, t.pc, t.status)) =
      some (8, 0xF4, 3, .running) := by decide +kernel
-- S7: a pop from the empty stack reads MEM_INIT, whatever it holds
theorem test_pop_empty_stack :
    after (at_ 0x10 (regs 0 0 0 0xF4) 0 (code2 0x46 2)) (fun t => (t.readReg 2, t.sp)) =
      some (Config.memInit 0xF4, 0xF5) := by
  have h : after (at_ 0x10 (regs 0 0 0 0xF4) 0 (code2 0x46 2)) (fun t => (t.readReg 2, t.sp)) =
    some (BitVec.ofNat 8 (Config.memInit 0xF4).toNat, 0xF5) := by rfl
  simpa using h

/-! ### The hypotheses of the obligations can be met -/

/-- A CMP, a PRN and a PUSH to look at, and a state with a byte at every address up to 255 that a witness needs. -/
def sCmp : State := at_ 0x10 (regs 6 5 0 0xF4) 0 (code3 0xA7 0 1)
def sPrn : State := at_ 0x10 (regs 6 5 0 0xF4) 0 (code2 0x47 0)
def sPush : State := at_ 0x10 (regs 6 5 0 0xF4) 0 (code2 0x45 0)
def sMod0 : State := at_ 0x10 (regs 6 0 0 0xF4) 0 (code3 0xA4 0 1)

-- AddAndMul, Bitwise, Cmp, and the two-register part of Shifts: the first and the last register
theorem witness_two_operands : Names 0 0 ∧ Names 7 7 := ⟨rfl, rfl⟩
-- Shifts, last clause, at its boundary 8
theorem witness_shift_amount : Names 0 0 ∧ Names 1 1 ∧
    8 ≤ ((at_ 0x10 (regs 1 8 0 0xF4) 0 []).readReg 1).toNat := ⟨rfl, rfl, by decide⟩
-- Mod, both clauses
theorem witness_mod : Names 0 0 ∧ Names 1 1 ∧ (sCmp.readReg 1).toNat ≠ 0 ∧ (sMod0.readReg 1).toNat = 0 :=
  ⟨rfl, rfl, by decide, by decide⟩
-- AddOfTheComplement, at k = 256 and k = 1
theorem witness_complement : Names 0 0 ∧ Names 1 1 ∧ 256 ≤ 256 ∧
    (sMod0.readReg 1).toNat = (256 - 256) % 256 ∧
    ((at_ 0x10 (regs 1 255 0 0xF4) 0 []).readReg 1).toNat = (256 - 1) % 256 :=
  ⟨rfl, rfl, by decide, by decide, by decide⟩
-- Not, Ldi, Prn, Push, Pop, Call, Jmp, ConditionalJumps, LdiThenPrn: an ordinary register and SP
theorem witness_one_operand : Names 6 6 ∧ (6 : RegIndex) ≠ SP ∧ Names 7 SP ∧ (7 : Byte).toNat ≤ 7 :=
  ⟨rfl, by decide, rfl, by decide⟩
-- PushThenPop
theorem witness_round_trip : Names 0 0 ∧ Names 6 6 ∧ (0 : RegIndex) ≠ SP ∧ (6 : RegIndex) ≠ SP :=
  ⟨rfl, rfl, by decide, by decide⟩
-- Call and RetReturnsAfterTheCall, where the clauses meet: pc 253 and pc 254
theorem witness_call : (at_ 253 (regs 0 0 0 0) 0 []).pc + 2 ≤ 255 ∧ 255 < (at_ 254 (regs 0 0 0 0) 0 []).pc + 2 := by decide
-- ConditionalJumps, both clauses
theorem witness_equal_flag : (0b001 : Flags).getLsbD 0 = true ∧ (0b110 : Flags).getLsbD 0 = false := by decide
-- OnlyTheEqualFlagIsRead
theorem witness_only_equal : flagE 0b100 = flagE sCmp.fl ∧ ∃ t, step sCmp = .next t ∧ t.fl = 0b010 :=
  ⟨by decide, _, rfl, by decide⟩
-- JumpToItself
theorem witness_self_jump : ∃ s : State, s.status = .running ∧ CodeAt s [0x54, 0] ∧ Names 0 0 ∧ (s.readReg 0).toNat = s.pc :=
  ⟨at_ 0x10 (regs 0x10 0 0 0xF4) 0 (code2 0x54 0), rfl, rfl, rfl, by decide⟩
-- IllegalRegisterIndex (8 and 255), LegalInstructions (7 and 0)
theorem witness_wellFormed : Instr.wellFormed (.jmp 8) = false ∧ Instr.wellFormed (.ldi 255 0) = false ∧
    Instr.wellFormed (.mod 0 7) = true ∧ Instr.wellFormed .hlt = true := by decide
-- StepRunsTheDecodedInstruction
theorem witness_step : sCmp.status = .running ∧ CodeAt sCmp [0xA7, 0, 1] ∧ decode [0xA7, 0, 1] = .ok (.cmp 0 1, []) :=
  ⟨rfl, rfl, rfl⟩
-- FetchAbove255
theorem witness_fetch_above : 255 < (at_ 256 (regs 0 0 0 0xF4) 0 []).pc := by decide
-- UnknownOpcode, at address 255
theorem witness_unknown : (at_ 255 (regs 0 0 0 0xF4) 0 [(255, 0)]).memRead 255 = .ok 0 ∧
    (0 : Byte).toNat ∉ [0x82, 0x47, 0x01, 0xA2, 0xA0, 0xA7, 0x46, 0x45, 0x50, 0x11,
      0x54, 0x55, 0x56, 0xA8, 0xAA, 0xAB, 0x69, 0xAC, 0xAD, 0xA4] := ⟨rfl, by decide⟩
-- OperandFetchStaysBelow256 and OperandFetchFaultPrecedesIndexFault, where the clauses meet: an ADD at 254 and at 253
theorem witness_operand_fetch :
    (at_ 254 (regs 0 0 0 0xF4) 0 [(254, 0xA0)]).memRead 254 = .ok 0xA0 ∧
    (decodeOpcode 0xA0).map Row.count = some 2 ∧ 255 < 254 + 2 ∧ 253 + 2 ≤ 255 ∧
    fetch (at_ 253 (regs 0 0 0 0xF4) 0 [(253, 0xA0), (254, 8), (255, 0)]) = .ok (.add 8 0) ∧
    Instr.wellFormed (.add 8 0) = false :=
  ⟨rfl, rfl, by decide, by decide, rfl, by decide⟩
-- FaultsArePrecise, DivisionByZeroOnlyByMod
theorem witness_fault : sMod0.status = .running ∧ fetch sMod0 = .ok (.mod 0 1) ∧ Names 0 0 ∧ Names 1 1 ∧
    sMod0.readReg 1 = 0 ∧ ∃ t, step sMod0 = .next t ∧ t.status = .faulted .divisionByZero :=
  ⟨rfl, rfl, rfl, rfl, by decide, _, rfl, rfl⟩
-- StoppedMachineNeverChanges, first clause of ControlStateTransitions
theorem witness_stopped : ({ sCmp with status := .halted } : State).status ≠ .running ∧
    ∃ t, step { sCmp with status := .halted } = .next t := ⟨by decide, _, rfl⟩
-- ControlStateTransitions, second clause: a fetch that faults, and an instruction that completes
theorem witness_transitions : fetch (at_ 256 (regs 0 0 0 0) 0 []) = .error .outOfRangeAddress ∧
    fetch sCmp = .ok (.cmp 0 1) ∧ ∃ t, step sCmp = .next t ∧ t.status = .running := ⟨rfl, rfl, _, rfl, rfl⟩
-- DefaultAdvanceByLength, also for JEQ not taken and JNE not taken
theorem witness_advance : fetch sCmp = .ok (.cmp 0 1) ∧ (∃ t, step sCmp = .next t ∧ NoFault t) ∧
    flagE 0b010 = false ∧ flagE 0b001 = true :=
  ⟨rfl, ⟨_, rfl, fun _ h => nomatch h⟩, by decide, by decide⟩
-- OnlyCmpChangesFlags
theorem witness_flags_change : ∃ t, step sCmp = .next t ∧ t.fl ≠ sCmp.fl := ⟨_, rfl, by decide⟩
-- OnlyPrnEmits, OutputIsWriteOnly
theorem witness_emits : ∃ t, step sPrn = .next t ∧ t.out ≠ sPrn.out := ⟨_, rfl, by decide⟩
-- OnlyPushAndCallWriteMemory, OnlyDestinationRegistersChange
theorem witness_push_writes : ∃ t, step sPush = .next t ∧ t.memRead 0xF3 = .ok 6 ∧
    sPush.memRead 0xF3 = .ok (Config.memInit 0xF3) ∧ t.readReg SP ≠ sPush.readReg SP :=
  ⟨_, rfl, rfl, rfl, by decide⟩
theorem witness_memory_changes : ∃ (s t : State) (a : Nat), step s = .next t ∧ t.memRead a ≠ s.memRead a :=
  ⟨at_ 0x10 (regs 6 5 0 0xF4) 0 (code2 0x45 0 ++ [(0xF3, 0)]), _, 0xF3, rfl, fun h => nomatch Except.ok.inj h⟩
-- UnsupportedAluOperation: SUB of the wider instruction set
theorem witness_selector :
    (0xA1 : Byte).toNat ∉ [0xA0, 0xA2, 0xA7, 0xA8, 0xAA, 0xAB, 0x69, 0xAC, 0xAD, 0xA4] ∧ sCmp.status = .running := by
  decide
-- MemReadIsRangeChecked and MemoryReadsWhatWasWritten: every clause at its boundary
theorem witness_canonical : Memory.wf State.reset.mem ∧ (0, Config.memInit 0) ∈ State.reset.mem :=
  ⟨wf_launchMemory, List.mem_map.2 ⟨0, by decide, rfl⟩⟩
theorem witness_ranges : 255 < 256 ∧ 255 ≤ 255 ∧ (255 < 256 ∨ 255 < 0) ∧ (255 < 0 ∨ 255 < 256) := by decide
-- PushedOpcodeIsFetchedNext
theorem witness_pushed_opcode : ∃ s : State, s.status = .running ∧ CodeAt s [0x45, 0] ∧ Names 0 0 ∧
    (0 : RegIndex) ≠ SP ∧ s.readReg 0 = 0x01 ∧ s.sp.toNat = s.pc + 3 :=
  ⟨at_ 0x10 (regs 1 0 0 0x13) 0 (code2 0x45 0), rfl, rfl, rfl, by decide, by decide, by decide⟩
-- InvariantIsKeptByEveryStep
theorem witness_invariant : ∃ s t : State, Inv s ∧ step s = .next t ∧ t.status = .running :=
  ⟨{ State.reset with mem := Memory.write (Memory.write launchMemory 0 0x47) 1 0 }, _,
    ⟨wf_write (wf_write wf_launchMemory (by decide) _) (by decide) _, by decide, .inl rfl⟩, rfl, rfl⟩
-- LaunchPlacesTheImage: both clauses, where they meet
theorem witness_launch : (List.replicate 256 (0 : Byte)).length ≤ 256 ∧ 256 < (List.replicate 257 (0 : Byte)).length := by
  simp only [List.length_replicate]
  decide
theorem witness_launch_byte : [(0x82 : Byte)][0]? = some 0x82 ∧ [(0x82 : Byte)].length ≤ 1 ∧ 1 ≤ 255 := by decide
-- StatusCodesAreFaithful
theorem witness_codes : (Status.faulted .divisionByZero).stateCode = 2 ∧
    (Status.faulted .divisionByZero).faultCode = 3 := by decide
-- DecodeAndEncodeAgree, second clause; OpcodeTableIsExact, second clause
theorem witness_decode : decode [0x11, 0xFF] = .ok (.ret, [0xFF]) := rfl
theorem witness_illegal_byte : (0xFF : Byte) ∉ [0x82, 0x47, 0x01, 0xA2, 0xA0, 0xA7, 0x46, 0x45, 0x50, 0x11, 0x54, 0x55,
    0x56, 0xA8, 0xAA, 0xAB, 0x69, 0xAC, 0xAD, 0xA4] := by decide

end Sys2Proof.Tests
end

section
/-! PROOFS. The scope's rules (spec/00_scope.md). -/

namespace Sys2Proof.Machine

/-- R10, R55: which register holds what after reset. -/
theorem readReg_reset : ∀ i : RegIndex, State.reset.readReg i = if i = SP then Config.spReset else 0 := by
  decide

/-- R32: SP is another name for `x[7]`. -/
theorem sp_eq_readReg_seven (s : State) : s.sp = s.readReg 7 := rfl

/-- Settles O48: register 7 is the one that reset fills with SP's reset value, and SP names it in every state. -/
theorem stackPointerResetsTo244 : Obligations.StackPointerResetsTo244 :=
  ⟨readReg_reset 7, sp_eq_readReg_seven⟩

end Sys2Proof.Machine
end

section
/-! PROOFS. The state's rules (spec/10_state.md). -/

namespace Sys2Proof.Machine

/-- The frame of R34: a register write touches no other register and no other part of the state. -/
theorem registerFrame_writeReg (s : State) (i : RegIndex) (v : Nat) : RegisterFrame [i] s (s.writeReg i v) := by
  have otherRegs : SameRegsExcept [i] s (s.writeReg i v) := fun _ hj =>
    readReg_writeReg_of_ne s v (List.ne_of_not_mem_cons hj)
  exact ⟨otherRegs, writeReg_fl s i v, fun a => memRead_writeReg s i v a, writeReg_out s i v, writeReg_status s i v⟩

/-- R34: the byte a register holds after a write of `v` is `v` modulo 256. -/
theorem toNat_readReg_writeReg_self (s : State) (i : RegIndex) (v : Nat) :
    ((s.writeReg i v).readReg i).toNat = v % 256 := by
  rw [readReg_writeReg_self, BitVec.toNat_ofNat]

/-- Settles O41: the written register holds the number modulo 256, and the write's frame is every other register and
field. -/
theorem registerWriteIsModulo256 : Obligations.RegisterWriteIsModulo256 := fun s i v =>
  ⟨toNat_readReg_writeReg_self s i v, writeReg_pc s i v, registerFrame_writeReg s i v⟩

end Sys2Proof.Machine
end

section
/-! PROOFS. The memory's rules (spec/20_memory.md). -/

namespace Sys2Proof.Machine

/-- Where no address is listed twice, looking an address up finds the byte listed for it. -/
theorem lookup_of_mem {m : Memory} {a : Nat} {b : Byte} (hm : (m.map Prod.fst).Nodup) (hab : (a, b) ∈ m) :
    Memory.lookup m a = some b := by
  induction m with
  | nil => simp at hab
  | cons c m ih =>
    obtain ⟨hc, hm⟩ := List.nodup_cons.1 hm
    rcases List.mem_cons.1 hab with rfl | hab
    · simp [Memory.lookup]
    · have hca : c.1 ≠ a := fun h => hc (h ▸ List.mem_map_of_mem hab)
      simp [Memory.lookup, hca, ih hm hab]

/-- R80: a canonical memory lists no address above 255. -/
theorem le_of_mem_of_wf {m : Memory} (h : Memory.wf m) {a : Nat} {b : Byte} (hab : (a, b) ∈ m) : a ≤ 255 := by
  have ha : a ∈ List.range Config.memSize := h ▸ List.mem_map_of_mem hab
  exact Nat.le_of_lt_succ (List.mem_range.1 ha)

/-- R80: in a canonical memory an address reads as the byte listed for it. -/
theorem read_of_mem_of_wf {m : Memory} (h : Memory.wf m) {a : Nat} {b : Byte} (hab : (a, b) ∈ m) :
    Memory.read m a = b := by
  have hm : (m.map Prod.fst).Nodup := h ▸ List.nodup_range
  simp [Memory.read, lookup_of_mem hm hab]

/-- Settles O42: the range check alone decides between the fault and a byte, and in a canonical memory each listed
address is in range and listed once, so the byte is the listed one. -/
theorem memReadIsRangeChecked : Obligations.MemReadIsRangeChecked := by
  refine fun s a => ⟨memRead_of_gt, fun ha => ⟨_, memRead_of_le ha⟩, fun hwf b hab => ?_⟩
  rw [memRead_of_le (le_of_mem_of_wf hwf hab), read_of_mem_of_wf hwf hab]

end Sys2Proof.Machine
end

section
/-! PROOFS. The encoding's rules (spec/30_encoding.md). -/

namespace Sys2Proof.Machine

/-- R117: the opcode bytes of the table, in its order. -/
theorem opcodes_opcodeTable : opcodeTable.map Row.opcode =
    [0x82, 0x47, 0x01, 0xA2, 0xA0, 0xA7, 0x46, 0x45, 0x50, 0x11, 0x54, 0x55, 0x56, 0xA8, 0xAA, 0xAB, 0x69, 0xAC, 0xAD,
      0xA4] := rfl

/-- R117: no opcode byte stands in two rows. -/
theorem nodup_opcodes_opcodeTable : (opcodeTable.map Row.opcode).Nodup := by
  decide

/-- R116: the bytes that decode to `Unknown` are those of no row. -/
theorem decodeOpcode_eq_none_iff {op : Byte} : decodeOpcode op = none ↔ op ∉ opcodeTable.map Row.opcode := by
  simp [decodeOpcode]

/-- R116: the opcode of a row decodes to that row. -/
theorem decodeOpcode_opcode {row : Row} (h : row ∈ opcodeTable) : decodeOpcode row.opcode = some row := by
  cases hd : decodeOpcode row.opcode with
  | none => exact absurd (List.mem_map_of_mem h) (decodeOpcode_eq_none_iff.1 hd)
  | some found =>
    obtain ⟨hfound, hop⟩ := mem_of_decodeOpcode hd
    rw [List.inj_on_of_nodup_map nodup_opcodes_opcodeTable hfound h hop]

/-- Decoding the table's opcodes in order answers the table. -/
theorem map_decodeOpcode_opcodes : (opcodeTable.map Row.opcode).map decodeOpcode = opcodeTable.map some := by
  rw [List.map_map]
  exact List.map_congr_left fun _ h => decodeOpcode_opcode h

/-- Settles O52: each opcode of the table decodes to its own row, since none stands there twice, and a byte of no row
decodes to nothing. -/
theorem opcodeTableIsExact : Obligations.OpcodeTableIsExact := by
  unfold Obligations.OpcodeTableIsExact
  rw [← opcodes_opcodeTable]
  refine ⟨?_, fun _ => decodeOpcode_eq_none_iff.2⟩
  have rows := congrArg (List.map (Option.map fun row : Row => (row.opcode, row.mnemonic, row.format.kinds)))
    map_decodeOpcode_opcodes
  rw [List.map_map] at rows
  exact rows

end Sys2Proof.Machine
end

section
/-! PROOFS. The dispatch cycle's rules (spec/40_dispatch_cycle.md): what each phase of fetching answers, that every step
answers a next state, how a step changes the control state, and the runs that never leave their state. -/

namespace Sys2Proof.Machine

variable {s t : State} {op : Byte} {row : Row} {i : Instr} {opnds rest : List Byte}

/-! ### The phases of fetching (R143 to R145) -/

/-- R144: an opcode byte of no row faults before any operand byte is read. -/
theorem fetch_of_decodeOpcode_none (hop : s.memRead s.pc = .ok op) (hd : decodeOpcode op = none) :
    fetch s = .error .unknownOpcode := by
  simp [fetch, hop, hd]

/-- R145: a fault of the operand fetch is the fetch's. -/
theorem fetch_of_fetchBytes_error {f : Fault} (hop : s.memRead s.pc = .ok op) (hd : decodeOpcode op = some row)
    (hf : fetchBytes s (s.pc + 1) row.count = .error f) : fetch s = .error f := by
  simp [fetch, hop, hd, hf]

/-- R143 to R145: a fetch whose phases all succeed answers the instruction the row's format builds. -/
theorem fetch_of_take (hop : s.memRead s.pc = .ok op) (hd : decodeOpcode op = some row)
    (ho : fetchBytes s (s.pc + 1) row.count = .ok opnds) (ht : row.format.take opnds = .ok (i, rest)) :
    fetch s = .ok i := by
  simp [fetch, hop, hd, ho, ht]

/-- R81: an address that reads as a byte is one of the 256. -/
theorem le_of_memRead_eq_ok {a : Nat} {b : Byte} (h : s.memRead a = .ok b) : a ≤ 255 := by
  by_contra hgt
  simp [memRead_of_gt (Nat.lt_of_not_le hgt)] at h

/-- R145: operand bytes that would reach beyond address 255 are not fetched. -/
theorem fetchBytes_of_gt {a n : Nat} (ha : a ≤ 256) (h : 256 < a + n) :
    fetchBytes s a n = .error .outOfRangeAddress := by
  cases hf : fetchBytes s a n with
  | ok bs =>
    obtain ⟨-, inSpace⟩ := fetchBytes_ok_bound hf
    have := inSpace (by omega)
    omega
  | error f => rw [fetchBytes_error hf]

/-- R145: the k-th byte fetched from address a on is the byte at a + k. -/
theorem memRead_of_fetchBytes {n a : Nat} (h : fetchBytes s a n = .ok opnds) {k : Nat} {b : Byte}
    (hk : opnds[k]? = some b) : s.memRead (a + k) = .ok b := by
  induction n generalizing a opnds k with
  | zero =>
    cases h
    simp at hk
  | succ n ih =>
    obtain ⟨c, cs, hc, hcs, rfl⟩ := fetchBytes_succ_eq_ok.1 h
    cases k with
    | zero =>
      cases hk
      exact hc
    | succ k =>
      rw [← Nat.add_assoc, Nat.add_right_comm]
      exact ih hcs hk

/-! ### What a row builds encodes back to the bytes it was built from (R111, R117) -/

/-- What a row's format builds encodes to the row's opcode and the operand bytes, whatever these are. -/
def EncodesBack (row : Row) : Prop :=
  match row.format with
  | .n i => encode i = [row.opcode]
  | .r mk => ∀ b, encode (mk b) = [row.opcode, b]
  | .rr mk => ∀ a b, encode (mk a b) = [row.opcode, a, b]
  | .ri mk => ∀ a b, encode (mk a b) = [row.opcode, a, b]

theorem encodesBack_of_mem_opcodeTable : ∀ row ∈ opcodeTable, EncodesBack row := by
  simp [opcodeTable, EncodesBack, encode, Instr.opcode, Instr.operands]

/-- R111: the format of a row that decodes `op` takes exactly the row's operand bytes, and the instruction it builds
encodes to `op` and those bytes. -/
theorem take_of_length_eq_count (hd : decodeOpcode op = some row) (hl : opnds.length = row.count) :
    ∃ i, row.format.take opnds = .ok (i, []) ∧ encode i = op :: opnds := by
  obtain ⟨hrow, rfl⟩ := mem_of_decodeOpcode hd
  have back := encodesBack_of_mem_opcodeTable row hrow
  unfold EncodesBack at back
  unfold Row.count at hl
  cases hfmt : row.format <;> simp only [hfmt, Format.kinds] at back hl
  case n i =>
    cases List.length_eq_zero_iff.1 hl
    exact ⟨i, rfl, back⟩
  case r mk =>
    obtain ⟨b, rfl⟩ := List.length_eq_one_iff.1 hl
    exact ⟨mk b, rfl, back b⟩
  case rr mk =>
    obtain ⟨a, b, rfl⟩ := List.length_eq_two.1 hl
    exact ⟨mk a b, rfl, back a b⟩
  case ri mk =>
    obtain ⟨a, b, rfl⟩ := List.length_eq_two.1 hl
    exact ⟨mk a b, rfl, back a b⟩

/-! ### Faults of decode and operand fetch -/

/-- A Running machine takes a fault of its fetch (R147). -/
theorem step_faulted_of_fetch_error {f : Fault} (hr : s.status = .running) (hf : fetch s = .error f) :
    ∃ t, step s = .next t ∧ t.status = .faulted f :=
  ⟨_, step_of_fetch_error hr hf, rfl⟩

/-- Settles O26: a byte whose number is none of the twenty stands in no row, so decode ends the fetch. -/
theorem unknownOpcodeFaults : Obligations.UnknownOpcodeFaults := by
  intro s op hr hop hnot
  have noRow : op ∉ opcodeTable.map Row.opcode := fun hmem => hnot (List.mem_map_of_mem (f := BitVec.toNat) hmem)
  exact step_faulted_of_fetch_error hr (fetch_of_decodeOpcode_none hop (decodeOpcode_eq_none_iff.2 noRow))

/-- Settles O27: the opcode's own address is in the space, so the operand fetch faults just when its last address is
not; else it reads the row's count of bytes, and the instruction built from them encodes back to them. -/
theorem operandFetchStaysBelow256 : Obligations.OperandFetchStaysBelow256 := by
  intro s op row hr hop hd
  have hpc := le_of_memRead_eq_ok hop
  refine ⟨fun hgt => ?_, fun hle => ?_⟩
  · have beyond := fetchBytes_of_gt (s := s) (a := s.pc + 1) (n := row.count) (by omega) (by omega)
    exact step_faulted_of_fetch_error hr (fetch_of_fetchBytes_error hop hd beyond)
  · obtain ⟨opnds, ho⟩ := fetchBytes_of_le (s := s) (a := s.pc + 1) (n := row.count) (by omega)
    obtain ⟨hl, -⟩ := fetchBytes_ok_bound ho
    obtain ⟨i, ht, henc⟩ := take_of_length_eq_count hd hl
    exact ⟨i, opnds, fetch_of_take hop hd ho ht, henc, hl, fun _ _ hk => memRead_of_fetchBytes ho hk⟩

/-! ### Every step answers a next state (R155) -/

/-- R21: every instruction is a computation on a copy of the state, completed. -/
theorem exec_eq_complete (i : Instr) (s : State) : ∃ m, exec i s = complete s m := by
  cases i with
  | hlt => exact ⟨.ok ((s.setStatus .halted).setPc (s.pc + 1)), rfl⟩
  | _ => exact ⟨_, rfl⟩

theorem exists_complete_eq_next (s : State) (m : Except Fault State) : ∃ t, complete s m = .next t := by
  cases m with
  | ok t => exact ⟨t, complete_ok s t⟩
  | error f => exact ⟨_, raise_eq f s⟩

/-- R155: every instruction answers a next state. -/
theorem exists_exec_eq_next (i : Instr) (s : State) : ∃ t, exec i s = .next t := by
  obtain ⟨m, hm⟩ := exec_eq_complete i s
  rw [hm]
  exact exists_complete_eq_next s m

/-- Settles O31: a stopped machine keeps its state, a fault of fetching is taken, and every instruction completes. -/
theorem everyStepAnswersANextState : Obligations.EveryStepAnswersANextState := by
  intro s
  by_cases hr : s.status = .running
  · cases hf : fetch s with
    | ok i =>
      rw [step_of_fetch_ok hr hf]
      exact exists_exec_eq_next i s
    | error f => exact ⟨_, step_of_fetch_error hr hf⟩
  · exact ⟨s, step_stopped hr⟩

/-! ### How a step changes the control state (R140, R151, R152) -/

/-- An instruction halts the machine as HLT, and any other keeps the control state or faults. -/
theorem Effect.status_cases (h : Effect s i t) :
    (i = .hlt ∧ t.status = .halted) ∨
    (i ≠ .hlt ∧ (t.status = s.status ∨ ∃ f, t.status = .faulted f)) := by
  cases h with
  | hlt => exact .inl ⟨rfl, rfl⟩
  | alu hi => exact .inr ⟨(by rintro rfl; cases hi), .inl rfl⟩
  | badIndex hw => exact .inr ⟨(by rintro rfl; cases hw), .inr ⟨_, rfl⟩⟩
  | divisionByZero | callAtTop => exact .inr ⟨nofun, .inr ⟨_, rfl⟩⟩
  | _ => exact .inr ⟨nofun, .inl rfl⟩

/-- Settles O32: a step's three endings (stopped, fetch fault, one instruction), and of the last the two an instruction
has for the control state. -/
theorem controlStateTransitions : Obligations.ControlStateTransitions := by
  intro s t h
  rcases step_cases h with ⟨hstop, rfl⟩ | ⟨hr, f, hf, rfl⟩ | ⟨hr, i, hf, heff⟩
  · exact ⟨fun _ => rfl, fun hr => absurd hr hstop⟩
  · exact ⟨fun hstop => absurd hr hstop, fun _ => by simp [hf]⟩
  · refine ⟨fun hstop => absurd hr hstop, fun _ => ?_⟩
    rcases heff.status_cases with ⟨rfl, hhalt⟩ | ⟨hne, hkept | ⟨f, hfault⟩⟩
    · simp [hf, hhalt]
    · simp [hf, hne, hkept, hr]
    · simp [hf, hne, hfault, NoFault]

/-! ### Runs that never leave their state (R152, R154) -/

/-- A state that steps to itself is the state after any number of steps. -/
theorem run_of_step_self (h : step s = .next s) (k : Nat) : core.run k s = .next s := by
  induction k with
  | zero => rfl
  | succ k ih => rw [run_succ h, ih]

/-- Settles O30: a stopped machine steps to itself. -/
theorem stoppedMachineNeverChanges : Obligations.StoppedMachineNeverChanges :=
  fun _ hstop => run_of_step_self (step_stopped hstop)

/-- The bytes of a JMP at pc are fetched as that JMP. -/
theorem fetch_jmp {r : Byte} (h : CodeAt s [0x54, r]) : fetch s = .ok (.jmp r) := by
  obtain ⟨_, _, hop, ho, hbytes⟩ := fetchBytes_succ_eq_ok.1 h
  cases hbytes
  exact fetch_of_take (row := ⟨0x54, "JMP", .r .jmp⟩) hop rfl ho rfl

/-- R253: JMP by a legal register sets pc to the register's value and changes nothing else. -/
theorem exec_jmp_of_names {r : Byte} {j : RegIndex} (hj : Names r j) :
    exec (.jmp r) s = .next (s.setPc (s.readReg j).toNat) := by
  simp [exec, execJmp, regOperand_of_names hj]

/-- Settles O21: a JMP to its own address writes to pc the value it holds, so the machine steps to the same state. -/
theorem jumpToItselfNeverEnds : Obligations.JumpToItselfNeverEnds := by
  intro r j s hr hcode hj htarget k
  have hself : step s = .next s := by
    rw [step_of_fetch_ok hr (fetch_jmp hcode), exec_jmp_of_names hj, htarget]
    rfl
  exact ⟨s, run_of_step_self hself k, hr, rfl⟩

end Sys2Proof.Machine
end

section
/-! PROOFS. The ALU's rules (spec/41_alu.md): what an instruction whose operand bytes name registers does with each of
the ALU's three outputs (R173), that rule for each operation, and from these the statements. -/

namespace Sys2Proof.Machine

variable {s : State} {op ra rb r : Byte} {a b i : RegIndex}

/-! ### Write-back of a result, of flags and of a fault (R173, R174) -/

/-- A register write followed by a write of pc has the frame of the register write. -/
theorem registerFrame_writeReg_setPc (s : State) (i : RegIndex) (v n : Nat) :
    RegisterFrame [i] s ((s.writeReg i v).setPc n) :=
  registerFrame_writeReg s i v

/-- A result is written into the first operand's register, with the default advance and nothing else changed. -/
theorem execAlu2_writes {v : Byte} (ha : Names ra a) (hb : Names rb b)
    (h : aluApply op (s.readReg a) (s.readReg b) = .result v) :
    ∃ t, execAlu2 op ra rb s = .next t ∧ t.readReg a = v ∧ t.pc = s.pc + 3 ∧ RegisterFrame [a] s t :=
  ⟨_, execAlu2_result ha hb h, by simp, rfl, registerFrame_writeReg_setPc s a v.toNat _⟩

/-- Flags are written into `fl`, with the default advance. -/
theorem execAlu2_flags {f : Flags} (ha : Names ra a) (hb : Names rb b)
    (h : aluApply op (s.readReg a) (s.readReg b) = .flags f) :
    execAlu2 op ra rb s = .next ((s.setFlags f).setPc (s.pc + 3)) := by
  simp [execAlu2, regOperand_of_names ha, regOperand_of_names hb, h, writeBack, Nat.add_assoc]

/-- A fault of the ALU is taken. -/
theorem execAlu2_fault {f : Fault} (ha : Names ra a) (hb : Names rb b)
    (h : aluApply op (s.readReg a) (s.readReg b) = .fault f) :
    execAlu2 op ra rb s = .next (s.setStatus (.faulted f)) := by
  simp [execAlu2, regOperand_of_names ha, regOperand_of_names hb, h, writeBack, raise_eq]

/-- R181: NOT writes the complement of its own register back. -/
theorem execNot_of_names (hi : Names r i) :
    execNot r s = .next ((s.writeReg i (~~~ s.readReg i).toNat).setPc (s.pc + 2)) := by
  simp only [execNot, execAlu1, regOperand_of_names hi, except_bind_ok, aluApply_not, writeBack, completeAdvance_ok]

/-- An instruction decoded from `op` and executed by the ALU with that selector, whose result is always `g`, writes back
what `g` computes on numbers. -/
theorem writesAlu2_of_result {mk : Byte → Byte → Instr} {g : Byte → Byte → Byte} {f : Nat → Nat → Nat}
    (hdecode : ∀ ra rb rest, decode (op :: ra :: rb :: rest) = .ok (mk ra rb, rest))
    (hexec : ∀ ra rb s, exec (mk ra rb) s = execAlu2 op ra rb s)
    (hresult : ∀ x y, aluApply op x y = .result (g x y)) (hg : ∀ x y, (g x y).toNat = f x.toNat y.toNat) :
    WritesAlu2 mk op f := by
  intro ra rb a b s ha hb
  obtain ⟨t, ht, hreg, hpc, hframe⟩ := execAlu2_writes ha hb (hresult (s.readReg a) (s.readReg b))
  exact ⟨hdecode ra rb, t, (hexec ra rb s).trans ht, by rw [hreg, hg], hpc, hframe⟩

/-! ### ADD, MUL, AND, OR and XOR (R175, R176, R178 to R180) -/

theorem writesAlu2_add : WritesAlu2 .add 0xA0 (fun a b => (a + b) % 256) :=
  writesAlu2_of_result (fun _ _ _ => rfl) (fun _ _ _ => rfl) aluApply_add fun _ _ => BitVec.toNat_ofNat ..

theorem writesAlu2_mul : WritesAlu2 .mul 0xA2 (fun a b => (a * b) % 256) :=
  writesAlu2_of_result (fun _ _ _ => rfl) (fun _ _ _ => rfl) aluApply_mul fun _ _ => BitVec.toNat_ofNat ..

/-- Settles O1: the result is the byte of the sum or the product, whose number is that modulo 256. -/
theorem addAndMulWriteBackModulo256 : Obligations.AddAndMulWriteBackModulo256 :=
  ⟨writesAlu2_add, writesAlu2_mul⟩

theorem writesAlu2_and : WritesAlu2 .and 0xA8 (fun a b => a &&& b) :=
  writesAlu2_of_result (fun _ _ _ => rfl) (fun _ _ _ => rfl) aluApply_and BitVec.toNat_and

theorem writesAlu2_or : WritesAlu2 .or 0xAA (fun a b => a ||| b) :=
  writesAlu2_of_result (fun _ _ _ => rfl) (fun _ _ _ => rfl) aluApply_or BitVec.toNat_or

theorem writesAlu2_xor : WritesAlu2 .xor 0xAB (fun a b => a ^^^ b) :=
  writesAlu2_of_result (fun _ _ _ => rfl) (fun _ _ _ => rfl) aluApply_xor BitVec.toNat_xor

/-- Settles O2: a bitwise operation on bytes is the one on their numbers. -/
theorem bitwiseOperationsWriteBack : Obligations.BitwiseOperationsWriteBack :=
  ⟨writesAlu2_and, writesAlu2_or, writesAlu2_xor⟩

/-! ### SHL and SHR (R182, R183) -/

theorem writesAlu2_shl : WritesAlu2 .shl 0xAC (fun a b => (a * 2 ^ b) % 256) :=
  writesAlu2_of_result (fun _ _ _ => rfl) (fun _ _ _ => rfl) aluApply_shl fun x y => by
    rw [BitVec.toNat_shiftLeft, Nat.shiftLeft_eq]

theorem writesAlu2_shr : WritesAlu2 .shr 0xAD (fun a b => a / 2 ^ b) :=
  writesAlu2_of_result (fun _ _ _ => rfl) (fun _ _ _ => rfl) aluApply_shr fun x y => by
    rw [BitVec.toNat_ushiftRight, Nat.shiftRight_eq_div_pow]

/-- Settles O3: the two write-backs; with an amount of 8 or more the power of 2 is a multiple of 256, so the shifted
number is 0 modulo 256 on the left, and the power exceeds every byte on the right. -/
theorem shiftsUseTheWholeByteAmount : Obligations.ShiftsUseTheWholeByteAmount := by
  refine ⟨writesAlu2_shl, writesAlu2_shr, fun ra rb a b s ha hb h8 => ?_⟩
  have hdvd : 256 ∣ 2 ^ (s.readReg b).toNat := pow_dvd_pow 2 h8
  obtain ⟨-, t, ht, hshl, -⟩ := writesAlu2_shl ra rb a b s ha hb
  obtain ⟨-, u, hu, hshr, -⟩ := writesAlu2_shr ra rb a b s ha hb
  have left : (t.readReg a).toNat = 0 := hshl.trans (Nat.mod_eq_zero_of_dvd (hdvd.mul_left _))
  have right : (u.readReg a).toNat = 0 :=
    hshr.trans (Nat.div_eq_of_lt ((s.readReg a).isLt.trans_le (Nat.le_of_dvd (Nat.two_pow_pos _) hdvd)))
  exact ⟨t, u, ht, BitVec.eq_of_toNat_eq left, hu, BitVec.eq_of_toNat_eq right⟩

/-! ### NOT (R181) -/

/-- Settles O4: the complement of a byte is 255 minus it, and it is written back into the same register. -/
theorem notComplementsItsOwnRegister : Obligations.NotComplementsItsOwnRegister := by
  intro r i s hi
  refine ⟨fun _ => rfl, _, execNot_of_names hi, ?_, rfl, registerFrame_writeReg_setPc s i _ _⟩
  rw [readReg_setPc, readReg_writeReg_self, ofNat_toNat_byte, BitVec.toNat_not]

/-! ### MOD (R184) -/

theorem aluApply_mod_zero {y : Byte} (h : y.toNat = 0) (x : Byte) :
    aluApply 0xA4 x y = .fault .divisionByZero := by
  rw [aluApply_mod, if_pos (BitVec.eq_of_toNat_eq h)]

theorem aluApply_mod_of_ne_zero {y : Byte} (h : y.toNat ≠ 0) (x : Byte) :
    aluApply 0xA4 x y = .result (BitVec.ofNat 8 (x.toNat % y.toNat)) := by
  rw [aluApply_mod, if_neg (ne_of_apply_ne BitVec.toNat h)]

/-- Settles O5: a divisor other than 0 gives a result, a remainder of bytes that is itself a byte; the divisor 0 gives
the fault. -/
theorem modWritesRemainderOrDividesByZero : Obligations.ModWritesRemainderOrDividesByZero := by
  intro ra rb a b s ha hb
  refine ⟨fun _ => rfl, fun hne => ?_, fun hz => execAlu2_fault ha hb (aluApply_mod_zero hz _)⟩
  obtain ⟨t, ht, hreg, hpc, hframe⟩ := execAlu2_writes ha hb (aluApply_mod_of_ne_zero hne _)
  have isByte : (s.readReg a).toNat % (s.readReg b).toNat < 256 := (Nat.mod_le _ _).trans_lt (s.readReg a).isLt
  exact ⟨t, ht, by rw [hreg, BitVec.toNat_ofNat, Nat.mod_eq_of_lt isByte], hpc, hframe⟩

/-! ### CMP (R177) -/

theorem compareFlags_of_eq {x y : Byte} (h : x.toNat = y.toNat) : compareFlags x y = 0b001 :=
  if_pos (BitVec.eq_of_toNat_eq h)

theorem compareFlags_of_gt {x y : Byte} (h : y.toNat < x.toNat) : compareFlags x y = 0b010 := by
  rw [compareFlags, if_neg (ne_of_apply_ne BitVec.toNat h.ne'), if_pos h]

theorem compareFlags_of_lt {x y : Byte} (h : x.toNat < y.toNat) : compareFlags x y = 0b100 := by
  rw [compareFlags, if_neg (ne_of_apply_ne BitVec.toNat h.ne), if_neg h.not_gt]

/-- R177: each of the three flags CMP writes says which of the three ways two numbers compare. -/
theorem flags_compareFlags (x y : Byte) :
    (flagE (compareFlags x y) = true ↔ x.toNat = y.toNat) ∧
    (flagG (compareFlags x y) = true ↔ y.toNat < x.toNat) ∧
    (flagL (compareFlags x y) = true ↔ x.toNat < y.toNat) := by
  rcases Nat.lt_trichotomy x.toNat y.toNat with h | h | h
  · simp [compareFlags_of_lt h, flagE, flagG, flagL, h, h.ne, h.le]
  · simp [compareFlags_of_eq h, flagE, flagG, flagL, h]
  · simp [compareFlags_of_gt h, flagE, flagG, flagL, h, h.ne', h.le]

/-- Settles O6: CMP's only write besides pc is the comparison's flags, and these are exact. -/
theorem cmpSetsExactlyOneFlag : Obligations.CmpSetsExactlyOneFlag := by
  intro ra rb a b s ha hb
  obtain ⟨hE, hG, hL⟩ := flags_compareFlags (s.readReg a) (s.readReg b)
  exact ⟨fun _ => rfl, _, execAlu2_flags ha hb (aluApply_cmp _ _), hE, hG, hL, rfl, fun _ _ => rfl, fun _ => rfl, rfl,
    rfl⟩

end Sys2Proof.Machine
end

section
/-! PROOFS. The rules of LDI (spec/42_register_and_output.md). -/

namespace Sys2Proof.Machine

/-- R210: LDI with a legal register byte writes its immediate into that register and advances by the default. -/
theorem execLdi_of_names {r : Byte} {i : RegIndex} (hi : Names r i) (imm : Byte) (s : State) :
    execLdi r imm s = .next ((s.writeReg i imm.toNat).setPc (s.pc + 3)) := by
  simp only [execLdi, regOperand_of_names hi, except_bind_ok, except_pure, completeAdvance_ok, Nat.add_assoc]

/-- Settles O8: the register write keeps a byte's number as it is, and its frame is every other register and field. -/
theorem ldiStoresTheImmediate : Obligations.LdiStoresTheImmediate := by
  intro r imm i s hi
  refine ⟨fun _ => rfl, _, execLdi_of_names hi imm s, ?_, rfl, registerFrame_writeReg_setPc s i _ _⟩
  rw [readReg_setPc, readReg_writeReg_self, ofNat_toNat_byte]

end Sys2Proof.Machine
end

section
/-! PROOFS. The rules of RET and JMP (spec/44_control_transfer.md). -/

namespace Sys2Proof.Machine

/-- The frame of a write of pc alone: no register and no other part of the state is touched. -/
theorem registerFrame_setPc (s : State) (n : Nat) : RegisterFrame [] s (s.setPc n) :=
  ⟨fun i _ => readReg_setPc s i n, setPc_fl s n, fun a => memRead_setPc s n a, setPc_out s n, setPc_status s n⟩

/-- The frame of a write of pc followed by pop-increment: SP is the one register that changes (R230). -/
theorem registerFrame_setPc_popIncrement (s : State) (n : Nat) :
    RegisterFrame [SP] s (s.setPc n).popIncrement :=
  registerFrame_writeReg (s.setPc n) SP _

/-- R231: pop-increment counts SP up modulo 256. -/
theorem toNat_sp_popIncrement (s : State) : s.popIncrement.sp.toNat = (s.sp.toNat + 1) % 256 := by
  rw [popIncrement_sp, BitVec.toNat_add]
  rfl

/-- R252: RET, whose popped byte is `v`, writes `v` to pc and increments SP. -/
theorem exec_ret_of_popRead {s : State} {v : Byte} (h : s.popRead = .ok v) :
    exec .ret s = .next (s.setPc v.toNat).popIncrement := by
  simp only [exec, execRet, h, except_bind_ok, except_pure, complete_ok]

/-- Settles O16: SP is a byte, so the pop's read answers one; it becomes pc, and SP is all else that changes. -/
theorem retPopsThePc : Obligations.RetPopsThePc := by
  intro s
  have popped := popRead_eq s
  exact ⟨fun _ => rfl, _, _, exec_ret_of_popRead popped, popped, rfl, toNat_sp_popIncrement _,
    registerFrame_setPc_popIncrement s _⟩

/-- Settles O18: with a register byte that names a register, JMP's one effect is the write of pc. -/
theorem jmpSetsThePc : Obligations.JmpSetsThePc := fun _ i s hi =>
  ⟨fun _ => rfl, _, exec_jmp_of_names hi, rfl, registerFrame_setPc s (s.readReg i).toNat⟩

end Sys2Proof.Machine
end

section
/-! PROOFS. The rules of faults (spec/60_exceptions.md): which faults fetching can raise, and which instruction divides
by zero. -/

namespace Sys2Proof.Machine

variable {s t : State} {f : Fault} {i : Instr}

/-- R81: the only fault of a memory read is OutOfRangeAddress. -/
theorem memRead_error {a : Nat} (h : s.memRead a = .error f) : f = .outOfRangeAddress := by
  rcases Nat.lt_or_ge 255 a with hgt | hle
  · rw [memRead_of_gt hgt] at h
    exact (Except.error.inj h).symm
  · rw [memRead_of_le hle] at h
    cases h

/-- R143 to R145: fetching raises OutOfRangeAddress or UnknownOpcode and no other fault. -/
theorem fetch_error (h : fetch s = .error f) : f = .outOfRangeAddress ∨ f = .unknownOpcode := by
  cases hop : s.memRead s.pc with
  | error g =>
    rw [fetch, hop, except_bind_error] at h
    cases h
    exact .inl (memRead_error hop)
  | ok op =>
    cases hd : decodeOpcode op with
    | none => exact .inr (Except.error.inj (h.symm.trans (fetch_of_decodeOpcode_none hop hd)))
    | some row =>
      cases ho : fetchBytes s (s.pc + 1) row.count with
      | error g =>
        cases h.symm.trans (fetch_of_fetchBytes_error hop hd ho)
        exact .inl (fetchBytes_error ho)
      | ok opnds =>
        obtain ⟨i, ht, -⟩ := take_of_length_eq_count hd (fetchBytes_ok_bound ho).1
        cases h.symm.trans (fetch_of_take hop hd ho ht)

/-- R283: of all effects of an instruction, MOD's with a zero divisor alone enters Faulted(DivisionByZero). -/
theorem Effect.eq_mod_of_divisionByZero (h : Effect s i t) (hs : s.status ≠ .faulted .divisionByZero)
    (ht : t.status = .faulted .divisionByZero) :
    ∃ ra rb a b, i = .mod ra rb ∧ Names ra a ∧ Names rb b ∧ s.readReg b = 0 := by
  cases h with
  | divisionByZero ha hb hz => exact ⟨_, _, _, _, rfl, ha, hb, hz⟩
  | hlt | badIndex | callAtTop => cases ht
  | _ => exact absurd ht hs

/-- R184: MOD with legal operands and a zero divisor takes DivisionByZero. -/
theorem exec_mod_of_readReg_eq_zero {ra rb : Byte} {a b : RegIndex} (ha : Names ra a) (hb : Names rb b)
    (hz : s.readReg b = 0) : exec (.mod ra rb) s = .next (s.setStatus (.faulted .divisionByZero)) :=
  execAlu2_fault ha hb (aluApply_mod_zero (congrArg BitVec.toNat hz) _)

/-- Settles O39: a fault of fetching is another one, and of the effects of an instruction only MOD's with a zero divisor
has this status; conversely that MOD has this effect. -/
theorem divisionByZeroOnlyByMod : Obligations.DivisionByZeroOnlyByMod := by
  intro s t hr hstep
  constructor
  · intro ht
    rcases step_cases hstep with ⟨hstop, -⟩ | ⟨-, f, hf, rfl⟩ | ⟨-, i, hf, heff⟩
    · exact absurd hr hstop
    · cases ht
      exact absurd (fetch_error hf) (by decide)
    · obtain ⟨ra, rb, a, b, rfl, legal⟩ := heff.eq_mod_of_divisionByZero (by simp [hr]) ht
      exact ⟨ra, rb, a, b, hf, legal⟩
  · rintro ⟨ra, rb, a, b, hf, ha, hb, hz⟩
    rw [step_of_fetch_ok hr hf, exec_mod_of_readReg_eq_zero ha hb hz] at hstep
    cases hstep
    rfl

end Sys2Proof.Machine
end

section
/-! PROOFS. Decoding and encoding are inverse to each other (spec/30_encoding.md sections 1 to 3). -/

namespace Sys2Proof.Machine

variable {row : Row} {i : Instr} {bs rest : List Byte}

/-- R110: an instruction's encoding has the instruction's length. -/
@[simp] theorem length_encode (i : Instr) : (encode i).length = i.length := by
  simp [encode, Instr.length, Nat.add_comm]

/-- R116, R117: each instruction's opcode finds its own row, whose format takes the operand bytes apart again. -/
theorem decode_encode_append (i : Instr) (rest : List Byte) : decode (encode i ++ rest) = .ok (i, rest) := by
  cases i <;> rfl

/-- R111: what the format of a table row takes from a byte string is an instruction whose encoding is the row's opcode
and the bytes taken. -/
theorem encode_append_of_take (hrow : row ∈ opcodeTable) (ht : row.format.take bs = .ok (i, rest)) :
    encode i ++ rest = row.opcode :: bs := by
  have back := encodesBack_of_mem_opcodeTable row hrow
  unfold EncodesBack at back
  cases hfmt : row.format <;> simp only [hfmt] at back ht
  case n i' =>
    cases ht
    simp [back]
  case r mk =>
    match bs, ht with
    | _ :: _, rfl => simp [back]
  case rr mk =>
    match bs, ht with
    | _ :: _ :: _, rfl => simp [back]
  case ri mk =>
    match bs, ht with
    | _ :: _ :: _, rfl => simp [back]

/-- R110, R116: a byte string that decodes begins with the encoding of what it decodes to. -/
theorem eq_encode_append_of_decode (h : decode bs = .ok (i, rest)) : bs = encode i ++ rest := by
  cases bs with
  | nil => cases h
  | cons op bs =>
    rw [decode_cons] at h
    cases hd : decodeOpcode op with
    | none => simp [hd] at h
    | some row =>
      obtain ⟨hrow, rfl⟩ := mem_of_decodeOpcode hd
      simp only [hd] at h
      exact (encode_append_of_take hrow h).symm

/-- Settles O51: the two directions, each by the rows of the table. -/
theorem decodeAndEncodeAgree : Obligations.DecodeAndEncodeAgree :=
  ⟨decode_encode_append, fun _ _ _ => eq_encode_append_of_decode⟩

/-- A table word whose bytes begin with an instruction's encoding decodes to that instruction. -/
theorem decodeTableWord_of_tableBytes {nbits w : Nat} (h : tableBytes nbits w = encode i ++ rest) :
    decodeTableWord nbits w = some i := by
  rw [decodeTableWord, h, decode_encode_append]

/-- Settles O53: the bytes of each word are those of the encoding, followed by 0 where the instruction is shorter than
three bytes; the byte 0 stands in no row. -/
theorem writtenOutWordsDecode : Obligations.WrittenOutWordsDecode :=
  ⟨decodeTableWord_of_tableBytes (rest := []) (by decide), decodeTableWord_of_tableBytes (rest := []) (by decide),
    decodeTableWord_of_tableBytes (rest := [0]) (by decide), decodeTableWord_of_tableBytes (rest := [0]) (by decide),
    decodeTableWord_of_tableBytes (rest := [0, 0]) (by decide), by decide⟩

end Sys2Proof.Machine
end

section
/-! PROOFS. Fetching answers exactly the instruction whose encoding stands at pc (spec/40_dispatch_cycle.md R143 to
R145), and the faults of fetching. -/

namespace Sys2Proof.Machine

variable {s t : State} {f : Fault} {i : Instr} {op : Byte} {row : Row}

/-! ### The instruction fetched and the bytes at pc -/

/-- The first of the bytes fetched are what a shorter fetch reads. -/
theorem fetchBytes_of_append {xs ys : List Byte} {a : Nat} (h : fetchBytes s a (xs ++ ys).length = .ok (xs ++ ys)) :
    fetchBytes s a xs.length = .ok xs := by
  induction xs generalizing a with
  | nil => rfl
  | cons x xs ih =>
    obtain ⟨b, cs, hb, hcs, hbytes⟩ := fetchBytes_succ_eq_ok.1 h
    cases hbytes
    exact fetchBytes_succ_eq_ok.2 ⟨_, _, hb, ih hcs, rfl⟩

/-- The phases of a fetch that succeeds: the opcode byte, its row, and the operand bytes. -/
theorem fetch_eq_ok (h : fetch s = .ok i) :
    ∃ op row opnds, s.memRead s.pc = .ok op ∧ decodeOpcode op = some row ∧
      fetchBytes s (s.pc + 1) row.count = .ok opnds ∧ encode i = op :: opnds := by
  obtain ⟨op, hop, h⟩ := except_bind_eq_ok.1 h
  cases hd : decodeOpcode op with
  | none => simp [hd] at h
  | some row =>
    simp only [hd] at h
    obtain ⟨opnds, ho, h⟩ := except_bind_eq_ok.1 h
    obtain ⟨j, ht, henc⟩ := take_of_length_eq_count hd (fetchBytes_ok_bound ho).1
    simp only [ht] at h
    cases h
    exact ⟨op, row, opnds, hop, hd, ho, henc⟩

/-- The row of an instruction's opcode has as many operands as the instruction. -/
theorem exists_row_of_opcode (i : Instr) :
    ∃ row, decodeOpcode i.opcode = some row ∧ row.format.take (i.operands.map Prod.snd) = .ok (i, []) := by
  have hdec : decode (encode i ++ []) = .ok (i, []) := decode_encode_append i []
  rw [List.append_nil, encode, decode_cons] at hdec
  cases hd : decodeOpcode i.opcode with
  | none => simp [hd] at hdec
  | some row => exact ⟨row, rfl, by simpa only [hd] using hdec⟩

/-- A format that takes all of a byte string takes as many bytes as it has operands. -/
theorem length_of_take {format : Format} {bs : List Byte} (h : format.take bs = .ok (i, [])) :
    bs.length = format.kinds.length := by
  cases format with
  | n => cases h; rfl
  | r => match bs, h with | [_], _ => rfl
  | rr => match bs, h with | [_, _], _ => rfl
  | ri => match bs, h with | [_, _], _ => rfl

/-- R143 to R145: fetching answers an instruction exactly when the instruction's encoding stands at pc. -/
theorem fetch_eq_ok_iff : fetch s = .ok i ↔ CodeAt s (encode i) := by
  constructor
  · intro h
    obtain ⟨op, row, opnds, hop, -, ho, henc⟩ := fetch_eq_ok h
    rw [CodeAt, henc, List.length_cons, (fetchBytes_ok_bound ho).1]
    exact fetchBytes_succ_eq_ok.2 ⟨op, opnds, hop, ho, rfl⟩
  · intro h
    obtain ⟨op, opnds, hop, ho, hbytes⟩ := fetchBytes_succ_eq_ok.1 h
    cases hbytes
    obtain ⟨row, hd, ht⟩ := exists_row_of_opcode i
    exact fetch_of_take hop hd (by rwa [Row.count, ← length_of_take ht]) ht

/-- R145: an instruction that is fetched ends within the space. -/
theorem pc_add_length_le_of_fetch (h : fetch s = .ok i) : s.pc + i.length ≤ 256 := by
  obtain ⟨-, inSpace⟩ := fetchBytes_ok_bound (fetch_eq_ok_iff.1 h)
  rw [length_encode] at inSpace
  exact inSpace (by unfold Instr.length; omega)

/-- A machine whose memory and pc are the same fetches the same. -/
theorem fetch_congr (hmem : t.mem = s.mem) (hpc : t.pc = s.pc) : fetch t = fetch s := by
  have read : t.memRead = s.memRead := funext fun a => by rw [State.memRead, State.memRead, hmem]
  have bytes : ∀ n a, fetchBytes t a n = fetchBytes s a n := by
    intro n
    induction n with
    | zero => exact fun _ => rfl
    | succ n ih => exact fun a => by rw [fetchBytes, fetchBytes, read, ih]
  simp only [fetch, read, hpc, bytes]

/-- Settles O24: the bytes begin with the instruction's encoding, so that is what is fetched and executed. -/
theorem stepRunsTheDecodedInstruction : Obligations.StepRunsTheDecodedInstruction := by
  intro s bs rest i hr hcode hdec
  rw [eq_encode_append_of_decode hdec] at hcode
  exact step_of_fetch_ok hr (fetch_eq_ok_iff.2 (fetchBytes_of_append hcode))

/-! ### Faults of opcode and operand fetch -/

/-- R143: with pc above 255 the opcode fetch faults. -/
theorem fetch_of_pc_gt (h : 255 < s.pc) : fetch s = .error .outOfRangeAddress := by
  rw [fetch, memRead_of_gt h, except_bind_error]

/-- R145: with an operand byte beyond address 255 the operand fetch faults. -/
theorem fetch_of_operands_beyond (hop : s.memRead s.pc = .ok op) (hd : decodeOpcode op = some row)
    (h : 255 < s.pc + row.count) : fetch s = .error .outOfRangeAddress := by
  have hpc := le_of_memRead_eq_ok hop
  exact fetch_of_fetchBytes_error hop hd (fetchBytes_of_gt (by omega) (by omega))

/-- Settles O25: the fault of the opcode fetch is taken. -/
theorem fetchAbove255Faults : Obligations.FetchAbove255Faults :=
  fun _ hr hpc => step_faulted_of_fetch_error hr (fetch_of_pc_gt hpc)

end Sys2Proof.Machine
end

section
/-! PROOFS. What an instruction answers is exactly its effect: each effect listed in `Effect` is what exec answers
(the converse of `exec_effect`), the index fault of spec/30_encoding.md section 4 among them. -/

namespace Sys2Proof.Machine

variable {s t : State} {instr : Instr} {op r ra rb : Byte} {i : RegIndex} {k : RegIndex → Except Fault State}

/-! ### Every instruction with an illegal register-index byte faults (R119, R146) -/

/-- An instruction without the default advance begins with the check of its operand byte. -/
theorem complete_of_illegal (h : 7 < r.toNat) :
    complete s (regOperand r >>= k) = .next (s.setStatus (.faulted .invalidRegisterIndex)) := by
  rw [regOperand_of_gt h, except_bind_error, complete_error, raise_eq]

/-- An instruction with the default advance begins with the check of its operand byte. -/
theorem completeAdvance_of_illegal {n : Nat} (h : 7 < r.toNat) :
    completeAdvance s n (regOperand r >>= k) = .next (s.setStatus (.faulted .invalidRegisterIndex)) := by
  rw [regOperand_of_gt h, except_bind_error, completeAdvance_error, raise_eq]

/-- A two-register ALU instruction begins with the check of both operand bytes. -/
theorem execAlu2_of_illegal (h : 7 < ra.toNat ∨ 7 < rb.toNat) :
    execAlu2 op ra rb s = .next (s.setStatus (.faulted .invalidRegisterIndex)) := by
  rcases regOperand_cases ra with ⟨a, ha, hra⟩ | ⟨hgt, -⟩
  · have hgt : 7 < rb.toNat := h.resolve_left (legal_reg_eq_false.not.1 (by simp [legal_reg_iff.2 ⟨a, ha⟩]))
    rw [execAlu2, hra, except_bind_ok]
    exact completeAdvance_of_illegal hgt
  · exact completeAdvance_of_illegal hgt

/-- R119, R146: an instruction that is not well-formed takes InvalidRegisterIndex. -/
theorem exec_of_not_wellFormed (h : instr.wellFormed = false) :
    exec instr s = .next (s.setStatus (.faulted .invalidRegisterIndex)) := by
  cases instr with
  | hlt | ret => cases h
  | ldi r imm =>
    exact completeAdvance_of_illegal (by simpa [Instr.wellFormed, Instr.operands, OperandKind.legal] using h)
  | prn r | pop r | push r | not r => exact completeAdvance_of_illegal ((wellFormed_one_eq_false rfl).1 h)
  | call r | jmp r | jeq r | jne r => exact complete_of_illegal ((wellFormed_one_eq_false rfl).1 h)
  | mul ra rb | add ra rb | cmp ra rb | and ra rb | or ra rb | xor ra rb | shl ra rb | shr ra rb | mod ra rb =>
    exact execAlu2_of_illegal ((wellFormed_two_eq_false rfl).1 h)

/-- Settles O22: the check is the first line of every meaning with a register operand. -/
theorem illegalRegisterIndexFaults : Obligations.IllegalRegisterIndexFaults :=
  fun _ _ => exec_of_not_wellFormed

/-- Settles O28: the fault of the operand fetch ends the cycle before exec; with all bytes fetched exec's index check is
reached. -/
theorem operandFetchFaultPrecedesIndexFault : Obligations.OperandFetchFaultPrecedesIndexFault := by
  intro s op row hr hop hd
  refine ⟨fun hgt => step_of_fetch_error hr (fetch_of_operands_beyond hop hd hgt), fun i hf hw => ?_⟩
  rw [step_of_fetch_ok hr hf]
  exact exec_of_not_wellFormed hw

/-! ### The instructions with legal operands -/

/-- R211: PRN appends the register's byte. -/
theorem execPrn_of_names (h : Names r i) :
    execPrn r s = .next ((s.emit (s.readReg i)).setPc (s.pc + 2)) := by
  simp only [execPrn, regOperand_of_names h, except_bind_ok, except_pure, completeAdvance_ok]

/-- R233: PUSH pushes what the register holds after the decrement. -/
theorem execPush_of_names (h : Names r i) :
    execPush r s = .next ((s.pushed (s.pushDecrement.readReg i)).setPc (s.pc + 2)) := by
  simp only [execPush, regOperand_of_names h, except_bind_ok,
    pushWrite_pushDecrement s (Nat.le_of_lt_succ (s.pushDecrement.readReg i).isLt), ofNat_toNat_byte, completeAdvance_ok]

/-- R234: POP writes the byte at SP to the register and then increments SP. -/
theorem execPop_of_names (h : Names r i) :
    execPop r s =
      .next ((s.writeReg i (Memory.read s.mem s.sp.toNat).toNat).popIncrement.setPc (s.pc + 2)) := by
  simp only [execPop, regOperand_of_names h, popRead_eq, except_bind_ok, except_pure, completeAdvance_ok]

/-- R251: CALL whose return address is a byte pushes it and jumps. -/
theorem execCall_of_names (h : Names r i) (hpc : s.pc + 2 ≤ 255) :
    execCall r s =
      .next ((s.pushed (BitVec.ofNat 8 (s.pc + 2))).setPc (s.pushDecrement.readReg i).toNat) := by
  simp only [execCall, regOperand_of_names h, except_bind_ok, if_neg (Nat.not_lt.2 hpc), pushWrite_pushDecrement s hpc,
    except_pure, complete_ok]
  rfl

/-- R251: CALL whose return address is no byte faults. -/
theorem execCall_at_top (h : Names r i) (hpc : 255 < s.pc + 2) :
    execCall r s = .next (s.setStatus (.faulted .outOfRangeAddress)) := by
  simp only [execCall, regOperand_of_names h, except_bind_ok, if_pos hpc, complete_error, raise_eq]

/-- R254, R255: a conditional jump writes pc alone. -/
theorem jumpIf_of_names (h : Names r i) (taken : Bool) :
    jumpIf taken r s = .next (s.setPc (if taken then (s.readReg i).toNat else s.pc + 2)) := by
  simp only [jumpIf, regOperand_of_names h, except_bind_ok, except_pure, complete_ok]

/-! ### exec answers the effect -/

/-- The instructions of `alu2Form` are executed by the ALU with that selector and those operand bytes. -/
theorem exec_of_alu2Form (h : alu2Form instr = some (op, ra, rb)) : exec instr s = execAlu2 op ra rb s := by
  cases instr <;> cases h <;> rfl

/-- Each effect of an instruction is what exec answers. -/
theorem exec_of_effect (h : Effect s instr t) : exec instr s = .next t := by
  cases h with
  | ldi h => exact execLdi_of_names h _ s
  | prn h => exact execPrn_of_names h
  | hlt => rfl
  | alu hi ha hb hv => rw [exec_of_alu2Form hi, execAlu2_result ha hb hv]
  | cmp ha hb => exact execAlu2_flags ha hb (aluApply_cmp _ _)
  | not h => exact execNot_of_names h
  | push h => exact execPush_of_names h
  | pop h => exact execPop_of_names h
  | call h hpc => exact execCall_of_names h hpc
  | ret => exact exec_ret_of_popRead (popRead_eq s)
  | jmp h => exact exec_jmp_of_names h
  | jeq h => exact jumpIf_of_names h _
  | jne h => exact jumpIf_of_names h _
  | badIndex h => exact exec_of_not_wellFormed h
  | divisionByZero ha hb hz => exact exec_mod_of_readReg_eq_zero ha hb hz
  | callAtTop h hpc => exact execCall_at_top h hpc

/-- A Running machine whose fetch answers an instruction steps by any effect of it. -/
theorem step_of_effect (hr : s.status = .running) (hf : fetch s = .ok instr) (h : Effect s instr t) :
    step s = .next t := by
  rw [step_of_fetch_ok hr hf, exec_of_effect h]

/-- Settles O23: of the effects of a legal instruction only HLT's and the two faults change the control state. -/
theorem legalInstructionsFaultOnlyAsListed : Obligations.LegalInstructionsFaultOnlyAsListed := by
  intro i s hw
  obtain ⟨t, ht⟩ := exists_exec_eq_next i s
  refine ⟨t, ht, ?_⟩
  cases exec_effect ht with
  | hlt => exact .inr (.inl ⟨rfl, rfl⟩)
  | divisionByZero _ hb hz => exact .inr (.inr (.inl ⟨rfl, _, _, _, rfl, hb, hz⟩))
  | callAtTop _ hpc => exact .inr (.inr (.inr ⟨rfl, ⟨_, rfl⟩, hpc⟩))
  | badIndex hbad => exact absurd hw (by simp [hbad])
  | _ => exact .inl rfl

end Sys2Proof.Machine
end

section
/-! PROOFS. What an instruction's effect does to each part of the state, said once for each part, and from these the
whole-machine rules (spec/10_state.md, spec/20_memory.md, spec/60_exceptions.md) and the machine's invariant. -/

namespace Sys2Proof.Machine

variable {s t : State} {i : Instr} {op ra rb : Byte}

/-! ### Flags, output, memory, registers -/

/-- R38, R171: an instruction keeps the flags, or it is CMP and writes a comparison's. -/
theorem Effect.fl_cases (h : Effect s i t) :
    t.fl = s.fl ∨ (∃ ra rb, i = .cmp ra rb) ∧ ∃ a b, t.fl = compareFlags a b := by
  cases h with
  | cmp => exact .inr ⟨⟨_, _, rfl⟩, _, _, rfl⟩
  | _ => exact .inl rfl

/-- R44: an instruction keeps the output, or it is PRN and appends the register's byte. -/
theorem Effect.out_cases (h : Effect s i t) :
    t.out = s.out ∨ ∃ r j, i = .prn r ∧ Names r j ∧ t.out = s.out ++ [s.readReg j] := by
  cases h with
  | prn h => exact .inr ⟨_, _, rfl, h, rfl⟩
  | _ => exact .inl rfl

/-- R83: an instruction keeps memory, or it is PUSH or CALL and writes one byte below the stack top. -/
theorem Effect.mem_cases (h : Effect s i t) :
    t.mem = s.mem ∨
      (∃ r, i = .push r ∨ i = .call r) ∧ ∃ v, t.mem = Memory.write s.mem (s.sp - 1).toNat v := by
  cases h with
  | push => exact .inr ⟨⟨_, .inl rfl⟩, _, rfl⟩
  | call => exact .inr ⟨⟨_, .inr rfl⟩, _, rfl⟩
  | _ => exact .inl rfl

/-- The instruction moves the stack pointer (R33, R230). -/
def MovesSp : Instr → Prop
  | .push _ | .pop _ | .call _ | .ret => True
  | _ => False

/-- The register byte an instruction writes its result to (R33). -/
def destination : Instr → Option Byte
  | .ldi r _ | .pop r | .not r => some r
  | .add ra _ | .mul ra _ | .and ra _ | .or ra _ | .xor ra _ | .shl ra _ | .shr ra _ | .mod ra _ => some ra
  | .prn _ | .hlt | .cmp _ _ | .push _ | .call _ | .ret | .jmp _ | .jeq _ | .jne _ => none

theorem destination_of_alu2Form (h : alu2Form i = some (op, ra, rb)) : destination i = some ra := by
  cases i <;> cases h <;> rfl

/-- A register write changes the register it names alone. -/
theorem eq_of_readReg_writeReg_ne {j k : RegIndex} {v : Nat} (h : (s.writeReg k v).readReg j ≠ s.readReg j) : j = k :=
  by_contra fun hjk => h (readReg_writeReg_of_ne s v hjk)

/-- R33: a register an instruction changes is its destination, or it is SP and the instruction moves it. -/
theorem Effect.destination_of_readReg_ne {j : RegIndex} (h : Effect s i t) (hne : t.readReg j ≠ s.readReg j) :
    (j = SP ∧ MovesSp i) ∨ ∃ d, destination i = some d ∧ Names d j := by
  cases h with
  | ldi h | not h =>
    cases eq_of_readReg_writeReg_ne hne
    exact .inr ⟨_, rfl, h⟩
  | alu hi ha =>
    cases eq_of_readReg_writeReg_ne hne
    exact .inr ⟨_, destination_of_alu2Form hi, ha⟩
  | push | call =>
    exact .inl ⟨by_contra fun hj => hne (by simp [readReg_pushed, hj]), trivial⟩
  | @pop _ k h =>
    by_cases hj : j = SP
    · exact .inl ⟨hj, trivial⟩
    · have unpopped : (s.writeReg k (Memory.read s.mem s.sp.toNat).toNat).readReg j ≠ s.readReg j := by
        simpa [readReg_popIncrement, hj] using hne
      cases eq_of_readReg_writeReg_ne unpopped
      exact .inr ⟨_, rfl, h⟩
  | ret => exact .inl ⟨by_contra fun hj => hne (by simp [readReg_popIncrement, hj]), trivial⟩
  | _ => exact absurd rfl hne

theorem movesSp_iff : MovesSp i ↔ i = .ret ∨ ∃ r, i = .push r ∨ i = .pop r ∨ i = .call r := by
  cases i <;> simp [MovesSp]

/-- The destination is the first operand, and the instructions without one are known by name. -/
theorem operand_of_destination {d : Byte} (h : destination i = some d) :
    i.operands.head?.map Prod.snd = some d ∧
      ∀ r q, i ≠ .prn r ∧ i ≠ .cmp r q ∧ i ≠ .jmp r ∧ i ≠ .jeq r ∧ i ≠ .jne r ∧ i ≠ .push r ∧ i ≠ .call r := by
  cases i <;> cases h <;> simp [Instr.operands]

/-! ### The program counter -/

/-- The instruction gives pc a value of its own, with no default advance (R150). -/
def SetsPc (s : State) : Instr → Prop
  | .jmp _ | .call _ | .ret => True
  | .jeq _ => flagE s.fl = true
  | .jne _ => flagE s.fl = false
  | _ => False

theorem length_of_alu2Form (h : alu2Form i = some (op, ra, rb)) : i.length = 3 := by
  cases i <;> cases h <;> rfl

/-- R149, R150, R147: an instruction advances pc by its length, sets it to a byte, or faults and leaves it. -/
theorem Effect.pc_cases (h : Effect s i t) :
    t.pc = s.pc + i.length ∨ (SetsPc s i ∧ t.pc ≤ 255) ∨ (t.pc = s.pc ∧ ∃ f, t.status = .faulted f) := by
  have byte : ∀ b : Byte, b.toNat ≤ 255 := fun b => Nat.le_of_lt_succ b.isLt
  cases h with
  | alu hi => exact .inl (by rw [length_of_alu2Form hi]; rfl)
  | call | ret | jmp => exact .inr (.inl ⟨trivial, byte _⟩)
  | jeq =>
    cases hE : flagE s.fl with
    | true => exact .inr (.inl ⟨hE, byte _⟩)
    | false => exact .inl rfl
  | jne =>
    cases hE : flagE s.fl with
    | true => exact .inl rfl
    | false => exact .inr (.inl ⟨hE, byte _⟩)
  | badIndex | divisionByZero | callAtTop => exact .inr (.inr ⟨rfl, _, rfl⟩)
  | _ => exact .inl rfl

/-! ### Faults -/

/-- R147: an instruction that ends Faulted changed the control state alone, and its reason is one of three. -/
theorem Effect.eq_setStatus_of_faulted {f : Fault} (h : Effect s i t) (hr : s.status = .running)
    (ht : t.status = .faulted f) :
    t = s.setStatus (.faulted f) ∧ (f = .invalidRegisterIndex ∨ f = .divisionByZero ∨ f = .outOfRangeAddress) := by
  cases h with
  | badIndex => cases ht; exact ⟨rfl, .inl rfl⟩
  | divisionByZero => cases ht; exact ⟨rfl, .inr (.inl rfl)⟩
  | callAtTop => cases ht; exact ⟨rfl, .inr (.inr rfl)⟩
  | hlt => cases ht
  | _ => exact absurd (ht.symm.trans hr) nofun

/-! ### The whole-machine rules -/

/-- A step that changes what a fault leaves alone has run an instruction. -/
theorem effect_of_step_of_ne {α : Type} (look : State → α) (keeps : ∀ f, look (s.setStatus (.faulted f)) = look s)
    (h : step s = .next t) (hne : look t ≠ look s) : ∃ i, fetch s = .ok i ∧ Effect s i t := by
  rcases step_cases h with ⟨-, rfl⟩ | ⟨-, f, -, rfl⟩ | ⟨-, i, hf, heff⟩
  · exact absurd rfl hne
  · exact absurd (keeps f) hne
  · exact ⟨i, hf, heff⟩

/-- Settles O34: neither a stopped machine's step nor a fault touches the flags, and of the instructions CMP alone. -/
theorem onlyCmpChangesFlags : Obligations.OnlyCmpChangesFlags := by
  intro s t h hne
  obtain ⟨i, hf, heff⟩ := effect_of_step_of_ne State.fl (fun _ => rfl) h hne
  rcases heff.fl_cases with hkept | ⟨⟨ra, rb, rfl⟩, -⟩
  · exact absurd hkept hne
  · exact ⟨ra, rb, hf⟩

/-- Settles O35: of the instructions PRN alone touches the output. -/
theorem onlyPrnEmits : Obligations.OnlyPrnEmits := by
  intro s t h hne
  obtain ⟨i, hf, heff⟩ := effect_of_step_of_ne State.out (fun _ => rfl) h hne
  rcases heff.out_cases with hkept | ⟨r, j, rfl, emitted⟩
  · exact absurd hkept hne
  · exact ⟨r, j, hf, emitted⟩

/-- R231: the cell a push writes, as a number. -/
theorem toNat_sp_sub_one (s : State) : (s.sp - 1).toNat = (s.sp.toNat + 255) % 256 := by
  rw [BitVec.toNat_sub, Nat.add_comm]
  rfl

/-- Settles O37: of the instructions PUSH and CALL alone write memory, and their write leaves every cell but the pushed
one. -/
theorem onlyPushAndCallWriteMemory : Obligations.OnlyPushAndCallWriteMemory := by
  intro s t a h hne
  obtain ⟨i, hf, heff⟩ := effect_of_step_of_ne (fun u => u.memRead a) (fun _ => rfl) h hne
  rcases heff.mem_cases with hkept | ⟨⟨r, hi⟩, v, hmem⟩
  · exact absurd (by simp only [State.memRead, hkept]) hne
  · refine ⟨?_, r, by simpa [hf] using hi⟩
    rw [← toNat_sp_sub_one]
    by_contra ha
    exact hne (by simp only [State.memRead, hmem, read_write_of_ne ha])

/-- Settles O38: a register an instruction changes is SP or the instruction's destination, its first operand. -/
theorem onlyDestinationRegistersChange : Obligations.OnlyDestinationRegistersChange := by
  intro s t j h hne
  obtain ⟨i, hf, heff⟩ := effect_of_step_of_ne (fun u => u.readReg j) (fun _ => rfl) h hne
  refine ⟨i, hf, (heff.destination_of_readReg_ne hne).imp (fun ⟨hj, moves⟩ => ⟨hj, movesSp_iff.1 moves⟩) ?_⟩
  rintro ⟨d, hd, names⟩
  obtain ⟨first, others⟩ := operand_of_destination hd
  exact ⟨d, first, names, others⟩

/-- Settles O33: what the hypotheses leave of the three ways an instruction ends for pc is the advance. -/
theorem defaultAdvanceByLength : Obligations.DefaultAdvanceByLength := by
  intro s t i hr hf h noFault hjmp hret hjeq hjne
  rw [step_of_fetch_ok hr hf] at h
  rcases (exec_effect h).pc_cases with advanced | ⟨sets, -⟩ | ⟨-, f, hfault⟩
  · exact advanced
  · cases i with
    | jmp r => exact absurd rfl (hjmp r).1
    | call r => exact absurd rfl (hjmp r).2
    | ret => exact absurd rfl hret
    | jeq r => exact absurd (sets.symm.trans (hjeq r rfl)) nofun
    | jne r => exact absurd (sets.symm.trans (hjne r rfl)) nofun
    | _ => exact sets.elim
  · exact absurd hfault (noFault f)

/-- Settles O29: a fault of fetching and a fault of an instruction are both taken by writing the control state alone. -/
theorem faultsArePrecise : Obligations.FaultsArePrecise := by
  intro s t f hr h ht
  rcases step_cases h with ⟨hstop, -⟩ | ⟨-, g, -, rfl⟩ | ⟨-, i, -, heff⟩
  · exact absurd hr hstop
  · cases ht
    rfl
  · exact (heff.eq_setStatus_of_faulted hr ht).1

/-- R171, R284: the ALU rejects a selector that is none of its ten. -/
theorem aluApply_of_not_mem {a b : Byte}
    (h : op.toNat ∉ [0xA0, 0xA2, 0xA7, 0xA8, 0xAA, 0xAB, 0x69, 0xAC, 0xAD, 0xA4]) :
    aluApply op a b = .fault .unsupportedAluOperation := by
  have notSelector : op ∉ [(0xA0 : Byte), 0xA2, 0xA7, 0xA8, 0xAA, 0xAB, 0x69, 0xAC, 0xAD, 0xA4] :=
    fun hmem => h (List.mem_map_of_mem (f := BitVec.toNat) hmem)
  simp only [List.mem_cons, not_or] at notSelector
  simp only [aluApply, notSelector, if_false]

/-- Settles O40: fetching faults with two other reasons and an instruction with three others. -/
theorem unsupportedAluOperationIsUnreachable : Obligations.UnsupportedAluOperationIsUnreachable := by
  refine ⟨fun _ _ _ => aluApply_of_not_mem, fun s t hr h ht => ?_⟩
  rcases step_cases h with ⟨hstop, -⟩ | ⟨-, f, hf, rfl⟩ | ⟨-, i, -, heff⟩
  · exact hstop hr
  · cases ht
    exact absurd (fetch_error hf) (by decide)
  · exact absurd (heff.eq_setStatus_of_faulted hr ht).2 (by decide)

/-! ### The invariant -/

/-- The invariant says nothing of the control state. -/
theorem Inv.setStatus (h : Inv s) (st : Status) : Inv (s.setStatus st) :=
  ⟨h.memory, h.pcBound, h.flags⟩

/-- An instruction fetched from a state with the invariant leaves a state with it. -/
theorem Effect.inv (h : Effect s i t) (hs : Inv s) (hf : fetch s = .ok i) : Inv t where
  memory := by
    rcases h.mem_cases with hkept | ⟨-, v, hmem⟩
    · exact hkept ▸ hs.memory
    · exact hmem ▸ wf_write hs.memory (Nat.le_of_lt_succ (s.sp - 1).isLt) v
  pcBound := by
    have hend := pc_add_length_le_of_fetch hf
    rw [Config.memSize]
    rcases h.pc_cases with hpc | ⟨-, hpc⟩ | ⟨hpc, -⟩ <;> omega
  flags := by
    rcases h.fl_cases with hkept | ⟨-, a, b, hfl⟩
    · exact hkept ▸ hs.flags
    · exact hfl ▸ .inr (compareFlags_legal a b)

/-- Settles O45: a stopped machine keeps its state, a fault writes the control state alone, and an instruction's effect
keeps each of the three parts. -/
theorem invariantIsKeptByEveryStep : Obligations.InvariantIsKeptByEveryStep := by
  intro s t hs h
  rcases step_cases h with ⟨-, rfl⟩ | ⟨-, f, -, rfl⟩ | ⟨-, i, hf, heff⟩
  · exact hs
  · exact hs.setStatus _
  · exact heff.inv hs hf

end Sys2Proof.Machine
end

section
/-! PROOFS. What a step does not read: of the flags anything but E (spec/10_state.md section 4), and the output emitted
so far (spec/60_exceptions.md section 6). Both are one comparison, of two states that differ in flags and output. -/

namespace Sys2Proof.Machine

variable {s t : State} {i : Instr} {f g : Flags} {o p : List Byte}

/-- The state with other flags and another output. -/
def State.withFlagsAndOutput (s : State) (f : Flags) (o : List Byte) : State := { s with fl := f, out := o }

/-- What leads from `s` to `t` leads from flags `f` and output `o` to `g` and `p`: the same flags are written or each
state's own kept, and the same bytes are appended. -/
structure ChangesAlike (s t : State) (f g : Flags) (o p : List Byte) : Prop where
  flags : g = t.fl ∨ (g = f ∧ t.fl = s.fl)
  output : ∃ new, t.out = s.out ++ new ∧ p = o ++ new

theorem changesAlike_of_kept (hfl : t.fl = s.fl) (hout : t.out = s.out) : ChangesAlike s t f f o o :=
  ⟨.inr ⟨rfl, hfl⟩, [], by simp [hout], by simp⟩

/-- A machine with other flags and another output fetches the same. -/
theorem fetch_withFlagsAndOutput (s : State) (f : Flags) (o : List Byte) :
    fetch (s.withFlagsAndOutput f o) = fetch s :=
  fetch_congr rfl rfl

/-- R40, R293: from flags with the same E and from any output an instruction has the same effect: CMP writes the same
flags, PRN appends the same byte, and every other instruction leaves what it finds. -/
theorem Effect.withFlagsAndOutput (h : Effect s i t) (hE : flagE f = flagE s.fl) (o : List Byte) :
    ∃ g p, ChangesAlike s t f g o p ∧ Effect (s.withFlagsAndOutput f o) i (t.withFlagsAndOutput g p) := by
  cases h with
  | cmp ha hb => exact ⟨_, o, ⟨.inl rfl, [], by simp, by simp⟩, .cmp ha hb⟩
  | prn h => exact ⟨f, _, ⟨.inr ⟨rfl, rfl⟩, _, rfl, rfl⟩, .prn h⟩
  | ldi h => exact ⟨f, o, changesAlike_of_kept rfl rfl, .ldi h⟩
  | hlt => exact ⟨f, o, changesAlike_of_kept rfl rfl, .hlt⟩
  | alu hi ha hb hv => exact ⟨f, o, changesAlike_of_kept rfl rfl, .alu hi ha hb hv⟩
  | not h => exact ⟨f, o, changesAlike_of_kept rfl rfl, .not h⟩
  | push h => exact ⟨f, o, changesAlike_of_kept rfl rfl, .push h⟩
  | pop h => exact ⟨f, o, changesAlike_of_kept rfl rfl, .pop h⟩
  | call h hpc => exact ⟨f, o, changesAlike_of_kept rfl rfl, .call h hpc⟩
  | ret => exact ⟨f, o, changesAlike_of_kept rfl rfl, .ret⟩
  | jmp h => exact ⟨f, o, changesAlike_of_kept rfl rfl, .jmp h⟩
  | jeq h => exact ⟨f, o, changesAlike_of_kept rfl rfl, hE ▸ .jeq h⟩
  | jne h => exact ⟨f, o, changesAlike_of_kept rfl rfl, hE ▸ .jne h⟩
  | badIndex hw => exact ⟨f, o, changesAlike_of_kept rfl rfl, .badIndex hw⟩
  | divisionByZero ha hb hz => exact ⟨f, o, changesAlike_of_kept rfl rfl, .divisionByZero ha hb hz⟩
  | callAtTop h hpc => exact ⟨f, o, changesAlike_of_kept rfl rfl, .callAtTop h hpc⟩

/-- A step reads no output and of the flags E alone. -/
theorem step_withFlagsAndOutput (h : step s = .next t) (hE : flagE f = flagE s.fl) (o : List Byte) :
    ∃ g p, ChangesAlike s t f g o p ∧ step (s.withFlagsAndOutput f o) = .next (t.withFlagsAndOutput g p) := by
  have sameFetch := fetch_withFlagsAndOutput s f o
  rcases step_cases h with ⟨hstop, rfl⟩ | ⟨hr, e, hf, rfl⟩ | ⟨hr, i, hf, heff⟩
  · exact ⟨f, o, changesAlike_of_kept rfl rfl, step_stopped hstop⟩
  · exact ⟨f, o, changesAlike_of_kept rfl rfl, step_of_fetch_error hr (sameFetch.trans hf)⟩
  · obtain ⟨g, p, alike, heff'⟩ := heff.withFlagsAndOutput hE o
    exact ⟨g, p, alike, step_of_effect hr (sameFetch.trans hf) heff'⟩

/-- Settles O20: the comparison with other flags and the same output. -/
theorem onlyTheEqualFlagIsRead : Obligations.OnlyTheEqualFlagIsRead := by
  intro s t f hE h
  obtain ⟨g, p, ⟨flags, new, hout, rfl⟩, hstep⟩ := step_withFlagsAndOutput h hE s.out
  rw [← hout] at hstep
  exact ⟨g, hstep, flags⟩

/-- Settles O36: the comparison with the same flags and another output. -/
theorem outputIsWriteOnly : Obligations.OutputIsWriteOnly := by
  intro s t o h
  obtain ⟨g, p, ⟨flags, new, hout, rfl⟩, hstep⟩ := step_withFlagsAndOutput h rfl o
  have sameFlags : g = t.fl := flags.elim id fun ⟨hg, hfl⟩ => hg.trans hfl.symm
  rw [sameFlags] at hstep
  exact ⟨new, hout, hstep⟩

end Sys2Proof.Machine
end

section
/-! PROOFS. The instructions of spec/41_alu.md to spec/44_control_transfer.md one by one and in sequence: ADD of a
complement, PRN, HLT, LDI then PRN, the stack, CALL and RET, the conditional jumps. -/

namespace Sys2Proof.Machine

variable {s : State} {r : Byte} {i : RegIndex}

/-- A byte of 0 to 7 names a register. -/
theorem exists_names_of_le (h : r.toNat ≤ 7) : ∃ i, Names r i :=
  legal_reg_iff.1 (decide_eq_true h)

/-! ### ADD, PRN, HLT (R185, R211, R212) -/

/-- Settles O7: the sum modulo 256 and `k` together are the old value and 256 or 0. -/
theorem addOfTheComplementSubtracts : Obligations.AddOfTheComplementSubtracts := by
  intro ra rb a b s k ha hb hk hcomp
  obtain ⟨-, t, ht, hsum, -⟩ := writesAlu2_add ra rb a b s ha hb
  have isByte := (s.readReg a).isLt
  exact ⟨t, ht, by simp only [hsum, hcomp]; omega⟩

/-- Settles O9: PRN's effect is the appended byte and the advance. -/
theorem prnEmitsTheRegister : Obligations.PrnEmitsTheRegister := fun _ _ _ hi =>
  ⟨fun _ => rfl, _, execPrn_of_names hi, rfl, rfl, fun _ _ => rfl, rfl, fun _ => rfl, rfl⟩

/-- Settles O10: HLT's effect is the control state and the advance. -/
theorem hltAdvancesAndHalts : Obligations.HltAdvancesAndHalts := fun _ =>
  ⟨fun _ => rfl, _, exec_of_effect .hlt, rfl, rfl, fun _ _ => rfl, rfl, fun _ => rfl, rfl⟩

/-- Settles O11: LDI leaves the value in the register and the output as it was, and PRN appends the register's byte. -/
theorem ldiThenPrnEmitsTheValue : Obligations.LdiThenPrnEmitsTheValue := by
  intro r v s hr
  obtain ⟨i, hi⟩ := exists_names_of_le hr
  obtain ⟨-, t, ht, hreg, htpc, -, -, -, htout, -⟩ := ldiStoresTheImmediate r v i s hi
  obtain ⟨-, u, hu, huout, hupc, -⟩ := prnEmitsTheRegister r i t hi
  exact ⟨t, u, ht, hu, by rw [huout, htout, hreg], by rw [hupc, htpc]⟩

/-! ### PUSH and POP (R230 to R234) -/

/-- R83: a push changes one memory byte, the one at the decremented SP. -/
theorem sameMemoryExcept_pushed (s : State) (v : Byte) (n : Nat) :
    SameMemoryExcept s.pushDecrement.sp.toNat s ((s.pushed v).setPc n) := by
  intro a ha
  rw [pushDecrement_sp] at ha
  rw [memRead_setPc, memRead_pushed_of_ne s v ha]

/-- R33: a push changes one register, SP. -/
theorem sameRegsExcept_pushed (s : State) (v : Byte) (n : Nat) :
    SameRegsExcept [SP] s ((s.pushed v).setPc n) := by
  intro j hj
  rw [readReg_setPc, readReg_pushed, if_neg (List.ne_of_not_mem_cons hj)]

/-- The cell SP names after a push holds the value pushed. -/
theorem memRead_sp_pushed (s : State) (v : Byte) (n : Nat) :
    ((s.pushed v).setPc n).memRead ((s.pushed v).setPc n).sp.toNat = .ok v := by
  rw [memRead_setPc, sp_setPc, pushed_sp, memRead_pushed]

theorem toNat_sp_pushed (s : State) (v : Byte) (n : Nat) :
    ((s.pushed v).setPc n).sp.toNat = (s.sp.toNat + 255) % 256 := by
  rw [sp_setPc, pushed_sp, toNat_sp_sub_one]

/-- Settles O12: PUSH's effect is a push of the register read after the decrement, and the advance. -/
theorem pushStoresBelowTheStackTop : Obligations.PushStoresBelowTheStackTop := by
  intro r i s hi
  refine ⟨fun _ => rfl, _, execPush_of_names hi, toNat_sp_pushed .., ?_, rfl, sameRegsExcept_pushed _ _ _,
    sameMemoryExcept_pushed _ _ _, rfl, rfl, rfl⟩
  rw [memRead_sp_pushed, readReg_pushDecrement, sp_setPc, pushed_sp]

/-- R33: a pop changes the register it loads and SP. -/
theorem registerFrame_pop (s : State) (i : RegIndex) (v n : Nat) :
    RegisterFrame [i, SP] s ((s.writeReg i v).popIncrement.setPc n) := by
  refine ⟨fun j hj => ?_, rfl, fun _ => rfl, rfl, rfl⟩
  obtain ⟨hji, hjSP⟩ : j ≠ i ∧ j ≠ SP := by simpa using hj
  rw [readReg_setPc, readReg_popIncrement, if_neg hjSP, readReg_writeReg_of_ne s v hji]

/-- Settles O13: POP's effect is the load of the byte at SP, the increment of what SP then is, and the advance. -/
theorem popLoadsTheStackTop : Obligations.PopLoadsTheStackTop := by
  intro r i s hi
  refine ⟨fun _ => rfl, _, _, execPop_of_names hi, popRead_eq s, fun hne => ⟨?_, ?_⟩, ?_, rfl,
    registerFrame_pop s i _ _⟩
  · rw [readReg_setPc, readReg_popIncrement, if_neg hne, readReg_writeReg_self, ofNat_toNat_byte]
  · rw [sp_setPc, toNat_sp_popIncrement, sp_writeReg, if_neg hne]
  · rintro rfl
    rw [sp_setPc, toNat_sp_popIncrement, sp_writeReg, if_pos rfl, ofNat_toNat_byte]

/-- R231: the increment undoes the decrement. -/
theorem eq_of_toNat_decrement_increment {x y z : Byte} (hy : y.toNat = (x.toNat + 255) % 256)
    (hz : z.toNat = (y.toNat + 1) % 256) : z = x :=
  BitVec.eq_of_toNat_eq (by have := x.isLt; omega)

/-- Settles O14: POP reads the cell PUSH wrote, and its increment undoes PUSH's decrement; the frames of the two leave
everything else. -/
theorem pushThenPopRoundTrips : Obligations.PushThenPopRoundTrips := by
  intro r q i j s hi hj hiSP hjSP
  obtain ⟨-, t, ht, htsp, pushed, htpc, htregs, htmem, -⟩ := pushStoresBelowTheStackTop r i s hi
  obtain ⟨-, u, v, hu, popped, loaded, -, hupc, huregs, -, humem, -⟩ := popLoadsTheStackTop q j t hj
  obtain ⟨huj, husp⟩ := loaded hjSP
  rw [if_neg hiSP] at pushed
  cases popped.symm.trans pushed
  have sp_eq : u.sp = s.sp := eq_of_toNat_decrement_increment htsp husp
  have cell : s.pushDecrement.sp.toNat = t.sp.toNat := by rw [pushDecrement_sp, toNat_sp_sub_one, htsp]
  refine ⟨t, u, ht, hu, huj, sp_eq, (humem _).trans pushed, fun k hk => ?_, fun a ha => ?_, by rw [hupc, htpc]⟩
  · by_cases hkSP : k = SP
    · exact hkSP ▸ sp_eq
    · rw [huregs k (by simpa [hkSP] using hk), htregs k (by simpa using hkSP)]
  · rw [humem a, htmem a (cell ▸ ha)]

/-! ### CALL and RET (R251, R252) -/

/-- Settles O15: CALL's effect is a push of the return address and the jump, or, where that is no byte, the fault. -/
theorem callPushesTheReturnAddress : Obligations.CallPushesTheReturnAddress := by
  intro r i s hi
  refine ⟨fun _ => rfl, fun hpc => ?_, fun hpc => execCall_at_top hi hpc⟩
  refine ⟨_, _, execCall_of_names hi hpc, toNat_sp_pushed .., memRead_sp_pushed .., ?_, ?_, sameRegsExcept_pushed _ _ _,
    sameMemoryExcept_pushed _ _ _, rfl, rfl, rfl⟩
  · rw [BitVec.toNat_ofNat, Nat.mod_eq_of_lt (Nat.lt_succ_of_le hpc)]
  · rw [setPc_pc, readReg_pushDecrement, sp_setPc, pushed_sp]

/-- Settles O17: RET pops the address CALL pushed, and its increment undoes CALL's decrement; the frames of the two leave
everything else. -/
theorem retReturnsAfterTheCall : Obligations.RetReturnsAfterTheCall := by
  intro r s hr hpc
  obtain ⟨i, hi⟩ := exists_names_of_le hr
  obtain ⟨-, called, -⟩ := callPushesTheReturnAddress r i s hi
  obtain ⟨t, v, ht, htsp, pushed, hv, -, htregs, -, htfl, -⟩ := called hpc
  obtain ⟨-, u, w, hu, popped, hupc, husp, huregs, hufl, -⟩ := retPopsThePc t
  cases popped.symm.trans pushed
  have sp_eq : u.sp = s.sp := eq_of_toNat_decrement_increment htsp husp
  refine ⟨t, u, ht, hu, by rw [hupc, hv], sp_eq, fun k _ => ?_, by rw [hufl, htfl]⟩
  by_cases hkSP : k = SP
  · exact hkSP ▸ sp_eq
  · rw [huregs k (by simpa using hkSP), htregs k (by simpa using hkSP)]

/-! ### JEQ and JNE (R254, R255) -/

/-- Settles O19: a conditional jump writes pc alone, the register's value or the default as E says. -/
theorem conditionalJumpsFollowE : Obligations.ConditionalJumpsFollowE := by
  intro r i s hi
  refine ⟨fun _ => ⟨rfl, rfl⟩, _, _, jumpIf_of_names hi (flagE s.fl), jumpIf_of_names hi (!flagE s.fl), fun hE => ?_,
    fun hE => ?_, registerFrame_setPc s _, registerFrame_setPc s _⟩
  · rw [flagE, hE]
    exact ⟨rfl, rfl⟩
  · rw [flagE, hE]
    exact ⟨rfl, rfl⟩

/-! ### A pushed opcode (R93) -/

/-- R93: an opcode pushed over the next instruction's first byte is what the next fetch decodes. -/
theorem fetch_hlt_pushed (hsp : s.sp.toNat = s.pc + 3) :
    fetch ((s.pushed 0x01).setPc (s.pc + 2)) = .ok .hlt := by
  have top : (s.sp - 1).toNat = s.pc + 2 := by
    have := s.sp.isLt
    rw [toNat_sp_sub_one]
    omega
  have read : ((s.pushed 0x01).setPc (s.pc + 2)).memRead (s.pc + 2) = .ok 0x01 := by
    rw [memRead_setPc, ← top, memRead_pushed]
  exact fetch_eq_ok_iff.2 (fetchBytes_succ_eq_ok.2 ⟨_, _, read, rfl, rfl⟩)

/-- Settles O44: PUSH writes HLT's opcode at SP - 1, which is where pc then is. -/
theorem pushedOpcodeIsFetchedNext : Obligations.PushedOpcodeIsFetchedNext := by
  intro r i s hr hcode hi hiSP hreg hsp
  have value : s.pushDecrement.readReg i = 0x01 := by rw [readReg_pushDecrement, if_neg hiSP, hreg]
  have pushes : step s = .next ((s.pushed 0x01).setPc (s.pc + 2)) :=
    step_of_effect hr ((fetch_eq_ok_iff (i := .push r)).2 hcode) (value ▸ .push hi)
  exact ⟨_, _, pushes, step_of_effect hr (fetch_hlt_pushed hsp) .hlt, rfl⟩

end Sys2Proof.Machine
end

section
/-! PROOFS. Memory writes (spec/20_memory.md), the reset state and the status codes (spec/10_state.md sections 5 and 9),
and launch (spec/70_reset_and_hazards.md section 2). -/

namespace Sys2Proof.Machine

/-! ### MemWrite (R82) -/

/-- R82: a write with an address or a value above 255 faults. -/
theorem memWrite_of_gt {s : State} {a v : Nat} (h : 255 < a ∨ 255 < v) :
    s.memWrite a v = .error .outOfRangeAddress := by
  unfold State.memWrite
  split
  · rfl
  · next ha => rw [if_pos (h.resolve_left ha)]

/-- Settles O43: a write within the ranges replaces the byte at its address in memory and nothing else. -/
theorem memoryReadsWhatWasWritten : Obligations.MemoryReadsWhatWasWritten := by
  refine fun s a v => ⟨fun ha hv => ?_, memWrite_of_gt⟩
  have written := (memWrite_eq_ok (s := s)).2 ⟨ha, hv, rfl⟩
  refine ⟨_, _, written, memRead_memWrite written, ?_, fun _ hne => memRead_memWrite_of_ne written hne, fun _ _ => rfl,
    rfl, rfl, rfl, rfl⟩
  rw [BitVec.toNat_ofNat, Nat.mod_eq_of_lt (Nat.lt_succ_of_le hv)]

/-! ### Reset (R55) -/

/-- Settles O46: the launch memory is canonical, and pc and the flags are 0. -/
theorem invariantHoldsAtReset : Obligations.InvariantHoldsAtReset :=
  ⟨wf_launchMemory, Nat.zero_le _, .inl rfl⟩

/-- Settles O47: the fields reset writes, and the launch memory's reading as MEM_INIT. -/
theorem resetValues : Obligations.ResetValues := by
  refine ⟨rfl, ?_, fun i hi => ?_, rfl, rfl, rfl, fun a ha => ?_⟩
  · rw [State.sp, readReg_reset, if_pos rfl]
    rfl
  · rw [readReg_reset, if_neg hi]
  · rw [memRead_of_le ha]
    exact congrArg Except.ok (read_launchMemory a)

/-! ### The status codes (R42) -/

/-- The control state that two codes stand for. -/
def Status.ofCodes (state : BitVec 2) (fault : BitVec 3) : Status :=
  if state = 0 then .running
  else if state = 1 then .halted
  else if fault = 1 then .faulted .outOfRangeAddress
  else if fault = 2 then .faulted .unknownOpcode
  else if fault = 3 then .faulted .divisionByZero
  else if fault = 4 then .faulted .unsupportedAluOperation
  else .faulted .invalidRegisterIndex

/-- A control state is read back from its two codes. -/
theorem ofCodes_stateCode_faultCode (st : Status) : Status.ofCodes st.stateCode st.faultCode = st := by
  cases st with
  | running | halted => rfl
  | faulted f => cases f <;> rfl

/-- R42, R280: no control state has the code 3, and no fault the codes 6 and 7. -/
theorem codes_used (st : Status) : st.stateCode ≠ 3 ∧ st.faultCode ≠ 6 ∧ st.faultCode ≠ 7 := by
  cases st with
  | running | halted => decide
  | faulted f => cases f <;> decide

/-- Settles O50: the control state is a function of its two codes. -/
theorem statusCodesAreFaithful : Obligations.StatusCodesAreFaithful := by
  refine ⟨rfl, rfl, codes_used, fun st st' hstate hfault => ?_⟩
  rw [← ofCodes_stateCode_faultCode st, hstate, hfault, ofCodes_stateCode_faultCode]

/-! ### Launch (R312, R298) -/

variable {m : Memory} {bs : List Byte} {a k : Nat} {b : Byte}

/-- Placing bytes leaves every address outside theirs as it was. -/
theorem read_placeBytes_of_outside (m : Memory) (bs : List Byte) (h : k < a ∨ a + bs.length ≤ k) :
    Memory.read (placeBytes m a bs) k = Memory.read m k := by
  induction bs generalizing m a with
  | nil => rfl
  | cons c bs ih =>
    rw [List.length_cons] at h
    rw [placeBytes, ih _ (by omega)]
    split
    · rfl
    · exact read_write_of_ne (by omega) m c

/-- The k-th byte placed from address a on stands at a + k, where that address exists. -/
theorem read_placeBytes (m : Memory) (hk : bs[k]? = some b) (h : a + k ≤ 255) :
    Memory.read (placeBytes m a bs) (a + k) = b := by
  induction bs generalizing m a k with
  | nil => simp at hk
  | cons c bs ih =>
    rw [placeBytes]
    cases k with
    | zero =>
      cases hk
      change Memory.read _ a = b
      rw [read_placeBytes_of_outside _ _ (.inl (Nat.lt_add_one a)), if_neg (by omega), read_write_self]
    | succ k =>
      rw [← Nat.add_assoc, Nat.add_right_comm]
      exact ih _ hk (by omega)

/-- Settles O49: launch writes memory alone, and placing the image's bytes keeps the canonical form. -/
theorem launchPlacesTheImage : Obligations.LaunchPlacesTheImage := by
  intro image
  refine ⟨fun hlen => ⟨_, if_pos hlen, ⟨wf_placeBytes wf_launchMemory 0 image, Nat.zero_le _, .inl rfl⟩,
    fun k b hk => ?_, fun a hout ha => ?_, fun _ _ => rfl, rfl, rfl, rfl, rfl⟩, fun hlen => if_neg (Nat.not_le.2 hlen)⟩
  · have hlt : k < image.length := (List.getElem?_eq_some_iff.1 hk).1
    have placed := read_placeBytes launchMemory hk (a := 0) (by omega)
    rw [Nat.zero_add] at placed
    rw [memRead_of_le (by omega), placed]
  · rw [memRead_of_le ha, read_placeBytes_of_outside launchMemory image (.inr (by omega)), read_launchMemory]

end Sys2Proof.Machine
end
